-- ==== Sys2Proof/Word.lean ====
section
/-! DEFINITION. The widths the format fixes: bytes, nibbles, u16, u32 (00_scope.md R6, R7). -/

namespace Sys2Proof

/-- A byte: bit 7 the most significant, bit 0 the least (R7). -/
abbrev Byte := BitVec 8

/-- One half of the control byte (R73). -/
abbrev Nibble := BitVec 4

/-- A `u16`: the distance (R6). -/
abbrev Half := BitVec 16

/-- A `u32`: a header word (R6). -/
abbrev Word := BitVec 32

end Sys2Proof
end

