-- ==== Sys2Proof/Machine/Params.lean ====
section
/-! DEFINITION. The format constants of 00_scope.md R5 (the rows marked *fixed*). The source's literals are
unaudited (93_implementation_defined.md section 3, log entry 19): UNVERIFIED against the original controller. -/

namespace Sys2Proof.Machine

/-- `MAGIC_WORD`, the only accepted magic. -/
def magicWord : Word := 0xAABBCCEE

/-- `HDR_BYTES`, the header length in bytes. -/
def hdrBytes : Nat := 16

/-- The bytes of the magic word alone (R101). -/
def magicBytes : Nat := 4

/-- `LIT_ESC`, the literal-count nibble that calls for one extension byte. -/
def litEsc : Nibble := 15

/-- `LEN_ESC`, the length-base nibble that calls for the extension chain. -/
def lenEsc : Nibble := 15

/-- `MIN_MATCH`, the constant added to the length base. -/
def minMatch : Nat := 4

/-- `CHAIN_CONT`, the chain byte that means more follows. -/
def chainCont : Byte := 0xFF

/-- `DIST_BYTES`, the bytes of the distance field. -/
def distBytes : Nat := 2

end Sys2Proof.Machine
end

