-- ==== Sys2Proof/Syntax.lean ====
section
/-! DEFINITION. The instructions, one constructor per row of opcode_table.json, each carrying the fields of the
row's own unit (the control byte, the extension byte, a chain byte, the header words); and the whole tokens and
programs of the notation of 30_encoding.md R90, R91. -/

namespace Sys2Proof

/-- One constructor per row of spec/opcode_table.json.

A token row's unit is its control byte, the opcode. The bytes that follow it are operands that later steps of the
same instruction fetch (literal bytes, distance) or units of their own rows (`LEXT`, `CHAIN.MORE`, `CHAIN.LAST`). -/
inductive Instr where
  /-- `HDR` (R100): the 16-byte header behind the magic word. -/
  | hdr (compressedSize sizeHint reserved : Word)
  /-- `TOK.XX` (R154): control byte `0xFF`. -/
  | tokXX
  /-- `TOK.XS` (R152): control byte `0xF0 | lo`, `lo` at most 14. -/
  | tokXS (lo : Nibble)
  /-- `TOK.SX` (R153): control byte `hi << 4 | 0xF`, `hi` at most 14. -/
  | tokSX (hi : Nibble)
  /-- `TOK.SS` (R151): control byte `hi << 4 | lo`, both at most 14. -/
  | tokSS (hi lo : Nibble)
  /-- `FIN` (R155): a token of any form whose literal run ends exactly at the end of the payload. -/
  | fin (hi lo : Nibble)
  /-- `LEXT` (R112): the one literal-count extension byte. -/
  | lext (ext : Byte)
  /-- `CHAIN.MORE` (R133): the chain byte `0xFF`. -/
  | chainMore
  /-- `CHAIN.LAST` (R133): any other chain byte. -/
  | chainLast (v : Byte)
  deriving DecidableEq, Repr

/-- Where an instruction is fetched: what a byte means depends on the part of the format it stands in (R82). -/
inductive Site where
  /-- source offset 0: the header -/
  | container
  /-- the start of a token: a control byte -/
  | token
  /-- the byte after a control byte with high nibble 15 -/
  | litCount
  /-- a byte of a length extension chain -/
  | chain
  deriving DecidableEq, Repr

/-- Why bytes are no instruction, or no whole token, by name. -/
inductive DecodeError where
  /-- there is no byte to decode -/
  | noBytes
  /-- fewer bytes than the header has -/
  | headerTooShort
  /-- the first word is not the magic word (the table's "no_match") -/
  | wrongMagic (w : Word)
  /-- the control byte asks for an extension byte and none is left (T4 of R182) -/
  | literalExtMissing
  /-- the literal run passes the end of the payload (T5) -/
  | literalRunTooLong
  /-- one byte stands where the distance should be (T6) -/
  | distanceCut
  /-- the payload ends before a chain byte other than `0xFF` (T7) -/
  | chainCut
  deriving DecidableEq, Repr

/-- A whole token of format `T` (R72), in the notation of R90. -/
inductive Token where
  /-- `tok <lits>, <dist>, <len>`: a token with a back-reference. -/
  | tok (lits : List Byte) (dist : Half) (len : Nat)
  /-- `fin <lits>, lb=<lb>`: a final token; `lb` is its ignored low nibble. -/
  | fin (lits : List Byte) (lb : Nibble)
  deriving DecidableEq, Repr

/-- One payload line of the notation of R90. -/
inductive Line where
  /-- a `tok` or `fin` line -/
  | token (t : Token)
  /-- `.byte`: the bytes as given -/
  | bytes (bs : List Byte)
  deriving DecidableEq, Repr

/-- A program of the notation of R90: the `.container` line, the payload lines and the `.trail` bytes. -/
structure Program where
  /-- `hint=`, default 0 -/
  hint : Word := 0
  /-- `rsv=`, default 0 -/
  rsv : Word := 0
  /-- `csize=`, by default the total length of the payload lines -/
  csize : Option Word := none
  /-- the payload lines -/
  body : List Line
  /-- bytes after the container, not counted in `csize` -/
  trail : List Byte := []
  deriving DecidableEq, Repr

end Sys2Proof
end

