-- ==== Sys2Proof/WellFormed.lean ====
section
/-! DEFINITION. Which instructions, tokens and programs have an encoding (30_encoding.md R80, R81, R90). -/

namespace Sys2Proof

/-- The operand ranges of each row of the opcode map (R81, R82): the value 15 of a nibble belongs to another row,
and so does the chain byte `0xFF`. -/
def Instr.wellFormed : Instr → Bool
  | .hdr _ _ _ => true
  | .tokXX => true
  | .tokXS lo => lo != 15
  | .tokSX hi => hi != 15
  | .tokSS hi lo => hi != 15 && lo != 15
  | .fin _ _ => true
  | .lext _ => true
  | .chainMore => true
  | .chainLast v => v != 0xFF

/-- The ranges of R90: 0 to 270 literals, a distance from 1, a length from 4. -/
def Token.wellFormed : Token → Bool
  | .tok lits dist len => decide (lits.length ≤ 270) && dist != 0 && decide (4 ≤ len)
  | .fin lits _ => decide (lits.length ≤ 270)

/-- A payload line of well-formed tokens that is not a final one. -/
def Line.isInner : Line → Bool
  | .token (.tok lits dist len) => (Token.tok lits dist len).wellFormed
  | .token (.fin _ _) => false
  | .bytes _ => true

/-- Every line well-formed, and a `fin` line only as the last one (R90). -/
def wellFormedLines : List Line → Bool
  | [] => true
  | [.token t] => t.wellFormed
  | [.bytes _] => true
  | l :: l' :: ls => l.isInner && wellFormedLines (l' :: ls)

/-- A program the notation of R90 allows. -/
def Program.wellFormed (p : Program) : Bool := wellFormedLines p.body

end Sys2Proof
end

