-- ==== Sys2Proof/Decode.lean ====
section
/-! DEFINITION. Decoding and encoding (30_encoding.md): bit fields and byte order, instructions, whole tokens,
programs, and the host's `decodeTableWord`. -/

namespace Sys2Proof

open Machine

/-! ### Bit fields and byte order -/

/-- `c[7:4] = c >> 4` (R7, R73). -/
def hiNibble (c : Byte) : Nibble := BitVec.ofNat 4 (c.toNat / 16)

/-- `c[3:0] = c & 0xF` (R7, R73). -/
def loNibble (c : Byte) : Nibble := BitVec.ofNat 4 (c.toNat % 16)

/-- The control byte with the given nibbles (R73). -/
def controlByte (hi lo : Nibble) : Byte := BitVec.ofNat 8 (16 * hi.toNat + lo.toNat)

/-- `le16(b0, b1)` (R8, R50). -/
def le16 (b0 b1 : Byte) : Half := BitVec.ofNat 16 (b0.toNat + 256 * b1.toNat)

/-- `le32(b0, b1, b2, b3)` (R8, R50). -/
def le32 (b0 b1 b2 b3 : Byte) : Word :=
  BitVec.ofNat 32 (b0.toNat + 256 * b1.toNat + 65536 * b2.toNat + 16777216 * b3.toNat)

/-- Byte `k` of a number, byte 0 the least significant. -/
def byteOf (w k : Nat) : Byte := BitVec.ofNat 8 (w / 256 ^ k)

/-- The bytes of a `u16` at increasing offsets (R50). -/
def bytes16 (w : Half) : List Byte := [byteOf w.toNat 0, byteOf w.toNat 1]

/-- The bytes of a `u32` at increasing offsets (R50). -/
def bytes32 (w : Word) : List Byte := [byteOf w.toNat 0, byteOf w.toNat 1, byteOf w.toNat 2, byteOf w.toNat 3]

/-! ### Instructions -/

/-- The opcode map by nibble (R81, R82), for a token that is not final. -/
def tokenForm (hi lo : Nibble) : Instr :=
  if hi = litEsc then
    if lo = lenEsc then .tokXX else .tokXS lo
  else
    if lo = lenEsc then .tokSX hi else .tokSS hi lo

/-- Whether the literal run of a token ends exactly at the end of the payload (R83, R155): `next` is the byte after
the control byte, `left` the number of payload bytes after it. -/
def endsPayload (hi : Nibble) (next : Option Byte) (left : Nat) : Bool :=
  if hi = litEsc then
    match next with
    | some ext => left == 1 + (litEsc.toNat + ext.toNat)
    | none => false
  else left == hi.toNat

/-- A control byte where `left` payload bytes, the first of them `next`, follow it (R81, R83). -/
def decodeControl (c : Byte) (next : Option Byte) (left : Nat) : Instr :=
  if endsPayload (hiNibble c) next left then .fin (hiNibble c) (loNibble c)
  else tokenForm (hiNibble c) (loNibble c)

/-- A chain byte (R82, R133): `CHAIN.MORE` is tried first. -/
def decodeChain (v : Byte) : Instr :=
  if v = chainCont then .chainMore else .chainLast v

/-- A header (R71): sixteen bytes, the first word the magic word. -/
def decodeHeader : List Byte → Except DecodeError Instr
  | m0 :: m1 :: m2 :: m3 :: rest =>
    if le32 m0 m1 m2 m3 = magicWord then
      match rest with
      | c0 :: c1 :: c2 :: c3 :: h0 :: h1 :: h2 :: h3 :: r0 :: r1 :: r2 :: r3 :: _ =>
        .ok (.hdr (le32 c0 c1 c2 c3) (le32 h0 h1 h2 h3) (le32 r0 r1 r2 r3))
      | _ => .error .headerTooShort
    else .error (.wrongMagic (le32 m0 m1 m2 m3))
  | [] => .error .noBytes
  | _ => .error .headerTooShort

/-- The instruction at the front of a list of bytes that stands at a site, total on any bytes. At a token, a count
byte or a chain byte the list is the rest of the payload; at the container it is the source. -/
def decode : Site → List Byte → Except DecodeError Instr
  | .container, bytes => decodeHeader bytes
  | .token, c :: rest => .ok (decodeControl c rest.head? rest.length)
  | .litCount, e :: _ => .ok (.lext e)
  | .chain, v :: _ => .ok (decodeChain v)
  | .token, [] => .error .noBytes
  | .litCount, [] => .error .noBytes
  | .chain, [] => .error .noBytes

/-- The site an instruction is fetched at. -/
def Instr.site : Instr → Site
  | .hdr _ _ _ => .container
  | .tokXX => .token
  | .tokXS _ => .token
  | .tokSX _ => .token
  | .tokSS _ _ => .token
  | .fin _ _ => .token
  | .lext _ => .litCount
  | .chainMore => .chain
  | .chainLast _ => .chain

/-- The bytes of an instruction's own unit: the header (R71), the control byte (R73, R81), the extension byte (R74),
the chain byte (R77). -/
def encode : Instr → List Byte
  | .hdr c h r => bytes32 magicWord ++ bytes32 c ++ bytes32 h ++ bytes32 r
  | .tokXX => [controlByte litEsc lenEsc]
  | .tokXS lo => [controlByte litEsc lo]
  | .tokSX hi => [controlByte hi lenEsc]
  | .tokSS hi lo => [controlByte hi lo]
  | .fin hi lo => [controlByte hi lo]
  | .lext e => [e]
  | .chainMore => [chainCont]
  | .chainLast v => [v]

/-- What must stand after an instruction's unit for its bytes to be that instruction: a `FIN` is a `FIN` only where
its literal run ends the payload, and another token form only where it does not (R83, R155). -/
def Instr.fits : Instr → List Byte → Bool
  | .hdr _ _ _, _ => true
  | .tokXX, rest => !endsPayload litEsc rest.head? rest.length
  | .tokXS _, rest => !endsPayload litEsc rest.head? rest.length
  | .tokSX hi, rest => !endsPayload hi rest.head? rest.length
  | .tokSS hi _, rest => !endsPayload hi rest.head? rest.length
  | .fin hi _, rest => endsPayload hi rest.head? rest.length
  | .lext _, _ => true
  | .chainMore, _ => true
  | .chainLast _, _ => true

/-! ### Whole tokens -/

/-- The high nibble and extension byte that spell a literal count (R80). -/
def encodeCount (n : Nat) : Nibble × List Byte :=
  if n ≤ 14 then (BitVec.ofNat 4 n, []) else (litEsc, [BitVec.ofNat 8 (n - 15)])

/-- The low nibble and chain that spell a back-reference length (R80). -/
def encodeLength (len : Nat) : Nibble × List Byte :=
  if len ≤ 18 then (BitVec.ofNat 4 (len - minMatch), [])
  else (lenEsc, List.replicate ((len - 19) / 255) chainCont ++ [BitVec.ofNat 8 ((len - 19) % 255)])

/-- The bytes of a token (R72), its counts spelled by R80. -/
def encodeToken : Token → List Byte
  | .tok lits dist len =>
    controlByte (encodeCount lits.length).1 (encodeLength len).1 ::
      ((encodeCount lits.length).2 ++ lits ++ bytes16 dist ++ (encodeLength len).2)
  | .fin lits lb =>
    controlByte (encodeCount lits.length).1 lb :: ((encodeCount lits.length).2 ++ lits)

/-- The literal count and the bytes after it (R74), from the bytes after the control byte. -/
def takeCount (hi : Nibble) (rest : List Byte) : Except DecodeError (Nat × List Byte) :=
  if hi = litEsc then
    match rest with
    | [] => .error .literalExtMissing
    | ext :: rest => .ok (litEsc.toNat + ext.toNat, rest)
  else .ok (hi.toNat, rest)

/-- The chain (R77) added to a length, and the bytes after it. -/
def takeChain : Nat → List Byte → Except DecodeError (Nat × List Byte)
  | _, [] => .error .chainCut
  | len, v :: rest => if v = chainCont then takeChain (len + v.toNat) rest else .ok (len + v.toNat, rest)

/-- The back-reference length and the bytes after it (R77), from the bytes after the distance. -/
def takeLength (lo : Nibble) (rest : List Byte) : Except DecodeError (Nat × List Byte) :=
  if lo = lenEsc then takeChain (minMatch + lo.toNat) rest else .ok (minMatch + lo.toNat, rest)

/-- The token at the front of the rest of a payload and the bytes after it (R72, R83), or why there is none. -/
def parseToken : List Byte → Except DecodeError (Token × List Byte)
  | [] => .error .noBytes
  | c :: rest =>
    match takeCount (hiNibble c) rest with
    | .error e => .error e
    | .ok (n, rest) =>
      if rest.length < n then .error .literalRunTooLong
      else
        match rest.drop n with
        | [] => .ok (.fin (rest.take n) (loNibble c), [])
        | [_] => .error .distanceCut
        | d0 :: d1 :: after =>
          match takeLength (loNibble c) after with
          | .error e => .error e
          | .ok (len, after) => .ok (.tok (rest.take n) (le16 d0 d1) len, after)

/-! ### Programs of the notation (R90, R91) -/

/-- `copy <dist>, <len>` (R91). -/
def Line.copy (dist : Half) (len : Nat) : Line := .token (.tok [] dist len)

/-- `rep <len>` (R91). -/
def Line.rep (len : Nat) : Line := .token (.tok [] 1 len)

/-- The bytes a payload line emits (R90). -/
def encodeLine : Line → List Byte
  | .token t => encodeToken t
  | .bytes bs => bs

/-- The payload of a program: its lines laid end to end (R70). -/
def Program.payload (p : Program) : List Byte := p.body.flatMap encodeLine

/-- The header of a program (R90): `csize` is by default the length of the payload lines. -/
def Program.header (p : Program) : Instr :=
  .hdr (p.csize.getD (BitVec.ofNat 32 p.payload.length)) p.hint p.rsv

/-- The whole source of a program (R70, R90). -/
def assemble (p : Program) : List Byte := encode p.header ++ p.payload ++ p.trail

/-! ### The host's table words -/

/-- The bytes of a table word laid out as the hardware stores them, zeros above `nbits`: a word of more than one
byte is the header (format `H`), a byte is a control byte (format `T`) with room for the zero operand bytes of the
longest token that has only zero operand bytes (1 + 1 + 15 + 2 + 1). -/
def tableBytes (nbits w : Nat) : List Byte :=
  if nbits ≤ 8 then byteOf w 0 :: List.replicate 19 0
  else (List.range hdrBytes).map (byteOf w)

/-- What the decoder reads from a table word: a word of one byte stands at the start of a token. -/
def decodeTableWord (nbits w : Nat) : Option Instr :=
  (decode (if nbits ≤ 8 then .token else .container) (tableBytes nbits w)).toOption

end Sys2Proof
end

