-- ==== Sys2Proof/Machine/State.lean ====
section
/-! DEFINITION. The state of one block (10_state.md R21), the reasons a step can stop, and the state after reset
(R41, R210). -/

namespace Sys2Proof.Machine

/-- `STATUS` (R25). -/
inductive Status where
  /-- 0: reset state, no run started since -/
  | idle
  /-- 1: a run is in progress -/
  | busy
  /-- 2: the last run ended successfully -/
  | doneOk
  /-- 3: the last run was aborted -/
  | err
  deriving DecidableEq, Repr

/-- `ERRCODE` (R26). Codes 5 to 7 are never written and have no constructor (U20). -/
inductive ErrCode where
  /-- 0: no error -/
  | none
  /-- 1: R181 -/
  | invalidMagic
  /-- 2: R182 -/
  | truncatedInput
  /-- 3: R183 -/
  | invalidDistance
  /-- 4: R184, only when `MAX_OUT` is finite -/
  | outputLimit
  deriving DecidableEq, Repr

/-- `ST`, the control state (R27). -/
inductive Ctl where
  /-- `S_IDLE`: waits for START -/
  | idle
  /-- `S_MAGIC`: reads and tests the magic -/
  | magic
  /-- `S_HDR`: reads the other header words, tests the payload length -/
  | hdr
  /-- `S_CTRL`: tests exhaustion, reads the control byte -/
  | ctrl
  /-- `S_LITEXT`: reads the literal-count extension byte -/
  | litExt
  /-- `S_LIT`: copies one literal byte or ends the run -/
  | lit
  /-- `S_DIST`: reads and tests the distance -/
  | dist
  /-- `S_LENEXT`: reads one length extension byte -/
  | lenExt
  /-- `S_COPY`: copies one back-reference byte or ends the copy -/
  | copy
  /-- `S_DONE`: terminal, success -/
  | done
  /-- `S_ERR`: terminal, abort -/
  | err
  deriving DecidableEq, Repr

/-- A byte memory: the bytes that hold a value, by rising address (log entry 2). -/
abbrev Memory := List Host.Cell

/-- The state of one block, exactly the tuple of R21. -/
structure State where
  /-- `SRC`, the source memory (R22) -/
  src : Memory
  /-- `SRC_LEN`, the bytes the source holds (R23) -/
  srcLen : Nat
  /-- `MAX_OUT`, `none` for `INF` (R24) -/
  maxOut : Option Nat
  /-- `STATUS` (R25) -/
  status : Status
  /-- `ERRCODE` (R26) -/
  errCode : ErrCode
  /-- `ST` (R27) -/
  st : Ctl
  /-- `MAGIC` (R28) -/
  magic : Word
  /-- `CSIZE` (R28) -/
  csize : Word
  /-- `SIZEHINT` (R28) -/
  sizeHint : Word
  /-- `RESERVED` (R28) -/
  reserved : Word
  /-- `CUR`, the payload cursor (R29) -/
  cur : Nat
  /-- `LC`, the literal count (R30) -/
  lc : Nat
  /-- `LB`, the length base (R30) -/
  lb : Nibble
  /-- `LITREM`, literal bytes still to copy (R32) -/
  litRem : Nat
  /-- `DIST`, the distance (R33) -/
  dist : Half
  /-- `BRLEN`, the back-reference length (R34) -/
  brLen : Nat
  /-- `COPYREM`, back-reference bytes still to copy (R34) -/
  copyRem : Nat
  /-- `OUT`, the output memory (R35) -/
  out : Memory
  /-- `OUT_LEN`, its current length (R35) -/
  outLen : Nat
  deriving DecidableEq, Repr

/-- Reads the spec leaves without a value (R9). All are safe: the machine stops where no run of a loaded source
goes (R143, R185), so no false claim can be proved from them (log entry 12). -/
inductive Fault where
  /-- a read of `SRC` at or above `SRC_LEN`: raised by the payload and header reads; safe -/
  | srcOutOfRange
  /-- a read of a byte below `SRC_LEN` that the host never placed (R214 duty 1): raised by the payload and header
  reads; safe -/
  | srcNotLoaded
  /-- a read of the payload at or above `CSIZE`: raised by the payload reads; safe -/
  | payloadOutOfRange
  /-- a `ReadBack(d)` with `d = 0` or `d > OUT_LEN`: raised by the copying step of `S_COPY`; safe -/
  | readBackOutOfRange
  /-- a read of an output byte below `OUT_LEN` that holds no value: raised by the copying step of `S_COPY`; safe -/
  | outNotWritten
  deriving DecidableEq, Repr

/-- Moves the spec gives no meaning to. All are safe: the model has no behaviour there. -/
inductive Refusal where
  /-- an instruction without a meaning yet; raised by no arm of this model; safe -/
  | notModelled (mnemonic : String)
  /-- an instruction asked for in a control state that none of its step rules belongs to: raised by the meanings,
  never by `step` (log entry 5); safe -/
  | outOfSequence
  /-- START while `STATUS = BUSY` (U14, R213): raised by `hostDo`; safe -/
  | startWhileBusy
  /-- a host write to `SRC`, `SRC_LEN` or `MAX_OUT` while `STATUS = BUSY` (U15, R225): raised by `hostDo`; safe -/
  | hostWriteWhileBusy
  /-- a host read of `OUT_LEN`, `OUT` or a header latch in a status that does not define it (U13, R40, R224), of `OUT`
  at or above `OUT_LEN` (R35, U10), of `SRC_LEN` or of `MAX_OUT`: raised by the host's reads; safe -/
  | hostReadNotDefined
  /-- a host read of a register that is never host-visible (U12, R40): raised by `hostRead`; safe -/
  | notHostVisible
  deriving DecidableEq, Repr

/-- The state after hardware reset (R41, R210): `STATUS`, `ERRCODE`, `ST`, `OUT_LEN` and `MAX_OUT` as the spec says.
DESIGN CHOICE, log entries 1 and 2: every register the spec leaves unspecified is 0, and no memory byte holds a
value. -/
def State.reset : State where
  src := []
  srcLen := 0
  maxOut := none
  status := .idle
  errCode := .none
  st := .idle
  magic := 0
  csize := 0
  sizeHint := 0
  reserved := 0
  cur := 0
  lc := 0
  lb := 0
  litRem := 0
  dist := 0
  brLen := 0
  copyRem := 0
  out := []
  outLen := 0

end Sys2Proof.Machine
end

