-- ==== Sys2Proof/Machine/Ops.lean ====
section
/-! DEFINITION. The named operations: reading and writing a memory; `Append` (10_state.md R36); the abort `raise`
(60_exceptions.md R190), which is how this block takes an exception; the successful end `finish` (R196); and START
(70_reset_and_hazards.md R213), the only way out of either terminal state (R192). -/

namespace Sys2Proof.Machine

/-! ### Memory -/

/-- What an address that is not listed reads as: no value (R41, R44, U11; log entry 2). -/
def Memory.unlisted : Option Byte := none

/-- The byte at an address, if one is listed. -/
def Memory.read : Memory → Nat → Option Byte
  | [], _ => Memory.unlisted
  | (k, v) :: m, a => if a = k then some v else Memory.read m a

/-- The memory with one byte written, addresses kept rising. -/
def Memory.write : Memory → Nat → Byte → Memory
  | [], a, b => [(a, b)]
  | (k, v) :: m, a, b =>
    if a < k then (a, b) :: (k, v) :: m
    else if a = k then (a, b) :: m
    else (k, v) :: Memory.write m a b

/-- The canonical form: addresses strictly rising. An entry holds a byte and an unlisted address no value, so no
entry equals what an unlisted address reads as. -/
abbrev Memory.wf (m : Memory) : Prop := m.Pairwise (fun p q => p.1 < q.1)

/-- A list of bytes placed at consecutive addresses from `a`. -/
def Memory.place : Nat → List Byte → Memory
  | _, [] => []
  | a, b :: bs => (a, b) :: Memory.place (a + 1) bs

/-- The `n` bytes at `a`, if all of them hold a value: `MemRead` of R9. -/
def Memory.slice (m : Memory) (a : Nat) : Nat → Option (List Byte)
  | 0 => some []
  | n + 1 =>
    match m.read a, Memory.slice m (a + 1) n with
    | some b, some bs => some (b :: bs)
    | _, _ => none

/-! ### The output -/

/-- The write of `Append` (R36): one byte at the end, the length one more. -/
def State.push (v : Byte) (s : State) : State :=
  { s with out := s.out.write s.outLen v, outLen := s.outLen + 1 }

/-- The limit test of `Append` (R36): `MAX_OUT` is finite and reached. -/
def State.limitHit (s : State) : Bool :=
  match s.maxOut with
  | none => false
  | some m => decide (m ≤ s.outLen)

/-! ### Abort, end, start -/

/-- `raise K` (R190): nothing is saved and control goes nowhere; the partial output is discarded. -/
def State.raise (k : ErrCode) (s : State) : State :=
  { s with status := .err, errCode := k, outLen := 0, st := .err }

/-- `finish` (R196): `ERRCODE`, `OUT_LEN` and `OUT` keep their values. -/
def State.finish (s : State) : State :=
  { s with status := .doneOk, st := .done }

/-- The host's load (R214 duties 1 and 2): the whole source from offset 0, and its length. -/
def State.load (bytes : List Byte) (s : State) : State :=
  { s with src := Memory.place 0 bytes, srcLen := bytes.length }

/-- START (R213): a fresh run from source offset 0 with an empty output. -/
def State.start (s : State) : State :=
  { s with status := .busy, errCode := .none, outLen := 0, cur := 0, st := .magic }

/-- `Append(v)` (R36) followed by the rest of the step that makes it: `OutputLimit` ends the step. -/
def State.append (v : Byte) (s : State) (rest : State → State) : State :=
  if s.limitHit then s.raise .outputLimit else rest (s.push v)

end Sys2Proof.Machine
end

