-- ==== Sys2Proof/Machine/Operands.lean ====
section
/-! DEFINITION. Every operand form: bytes and words of the source, payload bytes, the distance field, the byte a
copy reads back (00_scope.md R9, 10_state.md R37, 20_memory.md R50, R54, 44_token_forms_and_laws.md R167). -/

namespace Sys2Proof.Machine

/-- `MemRead(SRC:a, 1)` (R9): defined only below `SRC_LEN`. -/
def srcByte (a : Nat) (s : State) : Except Fault Byte :=
  if a < s.srcLen then
    match s.src.read a with
    | some b => .ok b
    | none => .error .srcNotLoaded
  else .error .srcOutOfRange

/-- The little-endian word at a source offset (R50). -/
def srcWord (a : Nat) (s : State) : Except Fault Word :=
  match srcByte a s, srcByte (a + 1) s, srcByte (a + 2) s, srcByte (a + 3) s with
  | .ok b0, .ok b1, .ok b2, .ok b3 => .ok (le32 b0 b1 b2 b3)
  | .error f, _, _, _ => .error f
  | _, .error f, _, _ => .error f
  | _, _, .error f, _ => .error f
  | _, _, _, .error f => .error f

/-- `P(i)` (R9): payload byte `i`, source offset `16 + i`, defined only below `CSIZE`. -/
def payloadByte (i : Nat) (s : State) : Except Fault Byte :=
  if i < s.csize.toNat then srcByte (hdrBytes + i) s else .error .payloadOutOfRange

/-- The distance field at the cursor (R76, R130). -/
def distanceField (s : State) : Except Fault Half :=
  match payloadByte s.cur s, payloadByte (s.cur + 1) s with
  | .ok d0, .ok d1 => .ok (le16 d0 d1)
  | .error f, _ => .error f
  | _, .error f => .error f

/-- `ReadBack(d)` (R37): the output byte `d` positions before the current end, defined for `1 <= d <= OUT_LEN`, with
`OUT_LEN` as it is now (R60). -/
def readBack (d : Nat) (s : State) : Except Fault Byte :=
  if 1 ≤ d ∧ d ≤ s.outLen then
    match s.out.read (s.outLen - d) with
    | some b => .ok b
    | none => .error .outNotWritten
  else .error .readBackOutOfRange

end Sys2Proof.Machine
end

