-- ==== Sys2Proof/Machine/Flags.lean ====
section
/-! DEFINITION. There are no flags (10_state.md R38): the tests the decoder makes are functions of the registers,
evaluated in the step that uses them and not stored. They stand here, one definition each. -/

namespace Sys2Proof.Machine

/-- `CUR = CSIZE`: the payload is exhausted. -/
def State.exhausted (s : State) : Bool := s.cur == s.csize.toNat

/-- `CSIZE - CUR`: the payload bytes left. The subtraction is safe where `CUR <= CSIZE` (R42, R165); elsewhere, where
no run goes, it is 0 (log entry 13). -/
def State.left (s : State) : Nat := s.csize.toNat - s.cur

/-- `LITREM > CSIZE - CUR`: the literal run would pass the end of the payload (R121). -/
def State.runTooLong (s : State) : Bool := decide (s.left < s.litRem)

/-- `DIST = 0` or `DIST > OUT_LEN`: the distance is invalid (R131, R183). -/
def State.badDistance (s : State) : Bool := s.dist == 0 || decide (s.outLen < s.dist.toNat)

end Sys2Proof.Machine
end

