-- ==== Sys2Proof/Machine/Header.lean ====
section
/-! DEFINITION. The Header Parser (40_header.md): the steps `S_MAGIC` and `S_HDR` and the meaning of `HDR`. -/

namespace Sys2Proof.Machine

/-- Step `S_MAGIC` (R101) with the word read at source offset 0. -/
def magicStep (w : Word) (s : State) : State :=
  if s.srcLen < magicBytes then s.raise .truncatedInput
  else
    let t := { s with magic := w }
    if w ≠ magicWord then t.raise .invalidMagic else { t with st := .hdr }

/-- Step `S_HDR` (R102) with the words read at source offsets 4, 8 and 12. -/
def headerStep (compressedSize sizeHint reserved : Word) (s : State) : State :=
  if s.srcLen < hdrBytes then s.raise .truncatedInput
  else
    let t := { s with csize := compressedSize, sizeHint := sizeHint, reserved := reserved }
    if s.srcLen - hdrBytes < compressedSize.toNat then t.raise .truncatedInput
    else { t with st := .ctrl }

/-- `HDR` (R100): `S_MAGIC`, then `S_HDR`. -/
def execHdr (compressedSize sizeHint reserved : Word) (s : State) : Host.Outcome State Fault Refusal :=
  match s.st with
  | .magic => .next (magicStep magicWord s)
  | .hdr => .next (headerStep compressedSize sizeHint reserved s)
  | _ => .refused .outOfSequence

end Sys2Proof.Machine
end

