-- ==== Sys2Proof/Machine/BackRef.lean ====
section
/-! DEFINITION. The back-reference (43_backref.md): the steps `S_DIST`, `S_LENEXT` and `S_COPY` and the meanings of
`CHAIN.MORE` and `CHAIN.LAST`. -/

namespace Sys2Proof.Machine

/-- Step `S_DIST` (R130) after the two bytes have been read: the test of R131, then the base length. -/
def setDistance (d : Half) (s : State) : State :=
  let t := { s with dist := d, cur := s.cur + distBytes }
  if t.badDistance then t.raise .invalidDistance
  else
    let u := { t with brLen := minMatch + t.lb.toNat }
    if u.lb = lenEsc then { u with st := .lenExt } else { u with copyRem := u.brLen, st := .copy }

/-- Step `S_DIST` (R130). -/
def distStep (s : State) : Host.Outcome State Fault Refusal :=
  if s.left < distBytes then .next (s.raise .truncatedInput)
  else
    match distanceField s with
    | .error f => .fault f
    | .ok d => .next (setDistance d s)

/-- Step `S_LENEXT` (R133) with the chain byte: every byte is added, `0xFF` calls for another. -/
def chainStep (v : Byte) (s : State) : State :=
  if s.exhausted then s.raise .truncatedInput
  else
    let t := { s with cur := s.cur + 1, brLen := s.brLen + v.toNat }
    if v = chainCont then { t with st := .lenExt } else { t with copyRem := t.brLen, st := .copy }

/-- Step `S_LENEXT` (R133) as a step of a token: the chain byte is read at the cursor. -/
def chainFetch (s : State) : Host.Outcome State Fault Refusal :=
  if s.exhausted then .next (s.raise .truncatedInput)
  else
    match payloadByte s.cur s with
    | .ok v => .next (chainStep v s)
    | .error f => .fault f

/-- Step `S_COPY` (R136): one byte, read at `OUT_LEN - DIST` with `OUT_LEN` as it is now, or the end of the copy. -/
def copyStep (s : State) : Host.Outcome State Fault Refusal :=
  if 0 < s.copyRem then
    match readBack s.dist.toNat s with
    | .error f => .fault f
    | .ok b => .next (s.append b fun t => { t with copyRem := t.copyRem - 1, st := .copy })
  else .next { s with st := .ctrl }

/-- `CHAIN.MORE` (R133). -/
def execChainMore (s : State) : Host.Outcome State Fault Refusal :=
  match s.st with
  | .lenExt => .next (chainStep chainCont s)
  | _ => .refused .outOfSequence

/-- `CHAIN.LAST` (R133). -/
def execChainLast (v : Byte) (s : State) : Host.Outcome State Fault Refusal :=
  match s.st with
  | .lenExt => .next (chainStep v s)
  | _ => .refused .outOfSequence

end Sys2Proof.Machine
end

