-- ==== Sys2Proof/Machine/Control.lean ====
section
/-! DEFINITION. The control byte and the literal-count extension (41_control.md): the steps `S_CTRL` and
`S_LITEXT` and the meaning of `LEXT`. -/

namespace Sys2Proof.Machine

/-- Step `S_CTRL` (R110) with the nibbles of the control byte. -/
def ctrlStep (hi lo : Nibble) (s : State) : State :=
  if s.exhausted then s.finish
  else
    let t := { s with cur := s.cur + 1, lc := hi.toNat, lb := lo }
    if hi = litEsc then { t with st := .litExt } else { t with litRem := hi.toNat, st := .lit }

/-- Step `S_LITEXT` (R112) with the extension byte: exactly one, never chained (R113). -/
def litExtStep (e : Byte) (s : State) : State :=
  if s.exhausted then s.raise .truncatedInput
  else
    { s with cur := s.cur + 1, lc := litEsc.toNat + e.toNat, litRem := litEsc.toNat + e.toNat, st := .lit }

/-- Step `S_LITEXT` (R112) as a step of a token: the extension byte is read at the cursor. -/
def litExtFetch (s : State) : Host.Outcome State Fault Refusal :=
  if s.exhausted then .next (s.raise .truncatedInput)
  else
    match payloadByte s.cur s with
    | .ok e => .next (litExtStep e s)
    | .error f => .fault f

/-- `LEXT` (R112). -/
def execLext (e : Byte) (s : State) : Host.Outcome State Fault Refusal :=
  match s.st with
  | .litExt => .next (litExtStep e s)
  | _ => .refused .outOfSequence

end Sys2Proof.Machine
end

