-- ==== Sys2Proof/Machine/Literal.lean ====
section
/-! DEFINITION. The literal run and the early termination (42_literal.md): the step `S_LIT`. -/

namespace Sys2Proof.Machine

/-- Step `S_LIT` (R120): one literal byte, or the end of the run and the test of R122. -/
def litStep (s : State) : Host.Outcome State Fault Refusal :=
  if s.runTooLong then .next (s.raise .truncatedInput)
  else if 0 < s.litRem then
    match payloadByte s.cur s with
    | .error f => .fault f
    | .ok b =>
      .next (s.append b fun t => { t with cur := t.cur + 1, litRem := t.litRem - 1, st := .lit })
  else if s.exhausted then .next s.finish
  else .next { s with st := .dist }

end Sys2Proof.Machine
end

