-- ==== Sys2Proof/Machine/Tokens.lean ====
section
/-! DEFINITION. The token forms (44_token_forms_and_laws.md R150 to R155). A token takes several steps; its meaning
in a state is the step of its sequence (R150) that the control state calls for (log entry 4). -/

namespace Sys2Proof.Machine

/-- `TOK.SS` (R151): the sequence of R150 without `S_LITEXT` and without `S_LENEXT`. -/
def execTokSS (hi lo : Nibble) (s : State) : Host.Outcome State Fault Refusal :=
  match s.st with
  | .ctrl => .next (ctrlStep hi lo s)
  | .lit => litStep s
  | .dist => distStep s
  | .copy => copyStep s
  | _ => .refused .outOfSequence

/-- `TOK.XS` (R152): the sequence of R150 with `S_LITEXT`, without `S_LENEXT`. -/
def execTokXS (lo : Nibble) (s : State) : Host.Outcome State Fault Refusal :=
  match s.st with
  | .ctrl => .next (ctrlStep litEsc lo s)
  | .litExt => litExtFetch s
  | .lit => litStep s
  | .dist => distStep s
  | .copy => copyStep s
  | _ => .refused .outOfSequence

/-- `TOK.SX` (R153): the sequence of R150 without `S_LITEXT`, with `S_LENEXT`. -/
def execTokSX (hi : Nibble) (s : State) : Host.Outcome State Fault Refusal :=
  match s.st with
  | .ctrl => .next (ctrlStep hi lenEsc s)
  | .lit => litStep s
  | .dist => distStep s
  | .lenExt => chainFetch s
  | .copy => copyStep s
  | _ => .refused .outOfSequence

/-- `TOK.XX` (R154): the sequence of R150 with both optional steps. -/
def execTokXX (s : State) : Host.Outcome State Fault Refusal :=
  match s.st with
  | .ctrl => .next (ctrlStep litEsc lenEsc s)
  | .litExt => litExtFetch s
  | .lit => litStep s
  | .dist => distStep s
  | .lenExt => chainFetch s
  | .copy => copyStep s
  | _ => .refused .outOfSequence

/-- `FIN` (R155): `S_CTRL`, `[S_LITEXT]`, `S_LIT`; the run ends in the last of them. -/
def execFin (hi lo : Nibble) (s : State) : Host.Outcome State Fault Refusal :=
  match s.st with
  | .ctrl => .next (ctrlStep hi lo s)
  | .litExt => litExtFetch s
  | .lit => litStep s
  | _ => .refused .outOfSequence

end Sys2Proof.Machine
end

