-- ==== Sys2Proof/Machine/Dispatch.lean ====
section
/-! DEFINITION. The dispatch: one arm per constructor of `Instr`. -/

namespace Sys2Proof.Machine

def exec (i : Instr) (s : State) : Host.Outcome State Fault Refusal :=
  match i with
  | .hdr c h r => Sys2Proof.Machine.execHdr c h r s
  | .tokXX => Sys2Proof.Machine.execTokXX s
  | .tokXS lo => Sys2Proof.Machine.execTokXS lo s
  | .tokSX hi => Sys2Proof.Machine.execTokSX hi s
  | .tokSS hi lo => Sys2Proof.Machine.execTokSS hi lo s
  | .fin hi lo => Sys2Proof.Machine.execFin hi lo s
  | .lext e => Sys2Proof.Machine.execLext e s
  | .chainMore => Sys2Proof.Machine.execChainMore s
  | .chainLast v => Sys2Proof.Machine.execChainLast v s

end Sys2Proof.Machine
end

