-- ==== Sys2Proof/Machine/Fetch.lean ====
section
/-! DEFINITION. What one step works on: the instruction at the cursor, or the instruction in progress, or the reason
there is none (44_token_forms_and_laws.md R150, R166); and the layout of a table word where the next step fetches. -/

namespace Sys2Proof.Machine

/-- What stands where the control state looks. -/
inductive Fetched where
  /-- a whole instruction unit, or the token in progress: it is executed -/
  | instr (i : Instr)
  /-- `S_MAGIC`: the opcode word alone, because it is not the magic word or the source ends inside the header -/
  | opcodeOnly (w : Word)
  /-- the bytes asked for lie past the end of the payload or of the source (R182) -/
  | missing
  /-- `S_CTRL` with the payload exhausted (R110) -/
  | exhausted
  /-- `S_IDLE`, `S_DONE`, `S_ERR`: no step (R211, R218) -/
  | resting
  /-- a read the spec gives no value to -/
  | unreadable (f : Fault)
  deriving DecidableEq, Repr

/-- The high nibble of the token in progress, from `LC`: 15 or more only by the extension (R114). -/
def State.hiNib (s : State) : Nibble :=
  if litEsc.toNat ≤ s.lc then litEsc else BitVec.ofNat 4 s.lc

/-- The token in progress, from `LC` and `LB` (log entry 8). -/
def State.token (s : State) : Instr := tokenForm s.hiNib s.lb

/-- The header words behind the magic word (R71), where the whole header stands in the source. -/
def headerAt (s : State) : Except Fault Instr :=
  match srcWord 4 s, srcWord 8 s, srcWord 12 s with
  | .ok c, .ok h, .ok r => .ok (.hdr c h r)
  | .error f, _, _ => .error f
  | _, .error f, _ => .error f
  | _, _, .error f => .error f

/-- `S_MAGIC` (R101): the opcode is the first word; the other words are only looked at once it is the magic word. -/
def fetchMagic (s : State) : Fetched :=
  if s.srcLen < magicBytes then .missing
  else
    match srcWord 0 s with
    | .error f => .unreadable f
    | .ok w =>
      if w ≠ magicWord then .opcodeOnly w
      else
        match headerAt s with
        | .ok i => .instr i
        | .error _ => .opcodeOnly w

/-- `S_HDR` (R102). -/
def fetchHdr (s : State) : Fetched :=
  if s.srcLen < hdrBytes then .missing
  else
    match headerAt s with
    | .ok i => .instr i
    | .error f => .unreadable f

/-- `S_CTRL` (R110): the control byte at the cursor, and whether its token is final (R83; log entry 7). -/
def fetchControl (s : State) : Fetched :=
  if s.exhausted then .exhausted
  else
    match payloadByte s.cur s with
    | .error f => .unreadable f
    | .ok c => .instr (decodeControl c (payloadByte (s.cur + 1) s).toOption (s.csize.toNat - (s.cur + 1)))

/-- `S_LITEXT` (R112). -/
def fetchLitExt (s : State) : Fetched :=
  if s.exhausted then .missing
  else
    match payloadByte s.cur s with
    | .error f => .unreadable f
    | .ok e => .instr (.lext e)

/-- `S_LENEXT` (R133). -/
def fetchChain (s : State) : Fetched :=
  if s.exhausted then .missing
  else
    match payloadByte s.cur s with
    | .error f => .unreadable f
    | .ok v => .instr (decodeChain v)

/-- `S_LIT` (R120): the token in progress, a `FIN` exactly when its run ends at the end of the payload (R155). -/
def fetchLit (s : State) : Fetched :=
  .instr (if s.litRem = s.left then .fin s.hiNib s.lb else s.token)

/-- What the control state works on. -/
def fetch (s : State) : Fetched :=
  match s.st with
  | .idle => .resting
  | .magic => fetchMagic s
  | .hdr => fetchHdr s
  | .ctrl => fetchControl s
  | .litExt => fetchLitExt s
  | .lit => fetchLit s
  | .dist => .instr s.token
  | .lenExt => fetchChain s
  | .copy => .instr s.token
  | .done => .resting
  | .err => .resting

/-- One step on what has been fetched. Between runs the block keeps all its state (R199, R211; log entry 3). -/
def runFetched (f : Fetched) (s : State) : Host.Outcome State Fault Refusal :=
  match f with
  | .instr i => exec i s
  | .opcodeOnly w => .next (magicStep w s)
  | .missing => .next (s.raise .truncatedInput)
  | .exhausted => .next s.finish
  | .resting => .next s
  | .unreadable f => .fault f

/-- A table word placed where the next step fetches (log entry 9). A word of more than one byte is a source of
sixteen bytes with START issued; a byte is the first payload byte of a container whose header has been stepped
over, so that the next step is `S_CTRL`. -/
def placeWord (nbits w : Nat) (s : State) : State :=
  let bytes := tableBytes nbits w
  if nbits ≤ 8 then
    let size : Word := BitVec.ofNat 32 bytes.length
    headerStep size 0 0 (magicStep magicWord (s.load (encode (.hdr size 0 0) ++ bytes)).start)
  else (s.load bytes).start

end Sys2Proof.Machine
end

