-- ==== Sys2Proof/Machine/Step.lean ====
section
/-! DEFINITION. One step of the block: one rule of a `4N_` file (00_scope.md R9, R12; log entry 4). -/

namespace Sys2Proof.Machine

/-- One step: fetch, then execute. -/
def step (s : State) : Host.Outcome State Fault Refusal := runFetched (fetch s) s

/-- The host's table word, placed where `step` fetches its next instruction. -/
def State.withFetchWord (s : State) (nbits w : Nat) : State := placeWord nbits w s

end Sys2Proof.Machine
end

