-- ==== Sys2Proof/Config.lean ====
section
/-! DEFINITION. What an implementation fixes and no test can show: the register widths of 10_state.md R29 to
R35. The registers themselves are exact naturals where R8, R31 and R165 say so (log entry 6); these widths are
what the width invariant of Safety.lean measures them against. The open parameters `SRC_AW` and `REG_MAP` (R5)
have no value here: `SRC_LEN` is an unbounded natural and registers are named, not addressed. No free value is
needed: the spec leaves no result of a step open (93_implementation_defined.md). -/

namespace Sys2Proof.Config

/-- Bits of `CUR` (R29). -/
def curBits : Nat := 32

/-- Bits of `LC` and `LITREM` (R30, R32). -/
def countBits : Nat := 9

/-- Bits of `BRLEN`, `COPYREM` and `OUT_LEN` (R31, R34, R35). -/
def lengthBits : Nat := 40

end Sys2Proof.Config
end

