-- ==== Sys2Proof/Machine/BigStep.lean ====
section
/-! DEFINITION. The whole decode as one function (44_token_forms_and_laws.md R156) and the effect of a whole token on
an output (R150). The step rules are the definition of the machine; R157 says that the two agree. -/

namespace Sys2Proof.Machine

/-- `MAX_OUT != INF and len(out) >= MAX_OUT` (R156). -/
def atLimit (maxOut : Option Nat) (len : Nat) : Bool :=
  match maxOut with
  | none => false
  | some m => decide (m ≤ len)

/-- `append` of R156 for each byte of a list in turn. -/
def appendList (maxOut : Option Nat) : List Byte → List Byte → Except ErrCode (List Byte)
  | [], out => .ok out
  | b :: bs, out =>
    if atLimit maxOut out.length then .error .outputLimit else appendList maxOut bs (out ++ [b])

/-- `repeat L times: append(out[len(out) - d])` of R156, the length taken anew for every byte. -/
def copyList (maxOut : Option Nat) (d : Nat) : Nat → List Byte → Except ErrCode (List Byte)
  | 0, out => .ok out
  | n + 1, out =>
    if atLimit maxOut out.length then .error .outputLimit
    else copyList maxOut d n (out ++ [out.getD (out.length - d) 0])

/-- The loop of R156 over the rest of the payload. Each round consumes a byte at least (R162), so a fuel of the
payload's length is never used up. -/
def decodeTokens (maxOut : Option Nat) : Nat → List Byte → List Byte → Except ErrCode (List Byte)
  | _, [], out => .ok out
  | 0, _ :: _, _ => .error .none
  | fuel + 1, c :: rest, out =>
    match takeCount (hiNibble c) rest with
    | .error _ => .error .truncatedInput
    | .ok (n, run) =>
      if run.length < n then .error .truncatedInput
      else
        match appendList maxOut (run.take n) out with
        | .error k => .error k
        | .ok out =>
          match run.drop n with
          | [] => .ok out
          | [_] => .error .truncatedInput
          | d0 :: d1 :: after =>
            if (le16 d0 d1).toNat = 0 ∨ out.length < (le16 d0 d1).toNat then .error .invalidDistance
            else
              match takeLength (loNibble c) after with
              | .error _ => .error .truncatedInput
              | .ok (len, after) =>
                match copyList maxOut (le16 d0 d1).toNat len out with
                | .error k => .error k
                | .ok out => decodeTokens maxOut fuel after out

/-- The word at an offset of a source that is long enough (R50). -/
def wordAt (src : List Byte) (a : Nat) : Word :=
  le32 (src.getD a 0) (src.getD (a + 1) 0) (src.getD (a + 2) 0) (src.getD (a + 3) 0)

/-- `decode(SRC, SRC_LEN, MAX_OUT)` (R156); `SRC_LEN` is the length of the list. -/
def decodeSource (src : List Byte) (maxOut : Option Nat) : Except ErrCode (List Byte) :=
  if src.length < magicBytes then .error .truncatedInput
  else if wordAt src 0 ≠ magicWord then .error .invalidMagic
  else if src.length < hdrBytes then .error .truncatedInput
  else if src.length - hdrBytes < (wordAt src 4).toNat then .error .truncatedInput
  else
    decodeTokens maxOut (wordAt src 4).toNat ((src.drop hdrBytes).take (wordAt src 4).toNat) []

/-- `R[i] = O[len(O) - d + (i mod d)]` for `0 <= i < L` (R137, R150): the last `d` bytes repeated, cut at `L`. -/
def copied (d len : Nat) (out : List Byte) : List Byte :=
  (List.range len).map fun i => out.getD (out.length - d + i % d) 0

/-- The effect of a whole token on an output without limit (R150): the literals, then the copied bytes. -/
def applyToken (out : List Byte) : Token → List Byte
  | .tok lits dist len => out ++ lits ++ copied dist.toNat len (out ++ lits)
  | .fin lits _ => out ++ lits

/-- Whether the distance of a token is valid on an output (R131). -/
def distanceValid (out : List Byte) : Token → Bool
  | .tok lits dist _ => dist != 0 && decide (dist.toNat ≤ out.length + lits.length)
  | .fin _ _ => true

end Sys2Proof.Machine
end

