-- ==== Sys2Proof/Machine/HostOps.lean ====
section
/-! DEFINITION. The host's side (10_state.md R40, 70_reset_and_hazards.md R210 to R217): its commands and its reads.
A move the spec gives the host no right to is refused by name (U12 to U15; log entry 10). -/

namespace Sys2Proof.Machine

/-- The value of `STATUS` (R25). -/
def Status.code : Status → BitVec 2
  | .idle => 0
  | .busy => 1
  | .doneOk => 2
  | .err => 3

/-- The value of `ERRCODE` (R26). -/
def ErrCode.code : ErrCode → BitVec 3
  | .none => 0
  | .invalidMagic => 1
  | .truncatedInput => 2
  | .invalidDistance => 3
  | .outputLimit => 4

/-- The commands of the host (R201, R216). -/
inductive HostCmd where
  /-- place the whole source and write `SRC_LEN` -/
  | load (bytes : List Byte)
  /-- write `MAX_OUT`, `none` for `INF` -/
  | setLimit (m : Option Nat)
  /-- START -/
  | start
  /-- hardware reset -/
  | reset
  deriving DecidableEq, Repr

/-- A host command (R216). Load, set limit and START are refused while a run is in progress (R217); reset is
accepted at any time and loses the run (R210; log entry 11). -/
def hostDo (c : HostCmd) (s : State) : Host.Outcome State Fault Refusal :=
  match c with
  | .load bytes => if s.status = .busy then .refused .hostWriteWhileBusy else .next (s.load bytes)
  | .setLimit m => if s.status = .busy then .refused .hostWriteWhileBusy else .next { s with maxOut := m }
  | .start => if s.status = .busy then .refused .startWhileBusy else .next s.start
  | .reset => .next State.reset

/-- The registers of R21, by name: there are no register addresses (`REG_MAP`, R5). -/
inductive HostReg where
  | status | errCode | outLen | magic | csize | sizeHint | reserved | srcLen | maxOut
  | st | cur | lc | lb | litRem | dist | brLen | copyRem
  deriving DecidableEq, Repr

/-- A value the host may read only after a successful run (R40). -/
def whenDone (v : Nat) (s : State) : Except Refusal Nat :=
  match s.status with
  | .doneOk => .ok v
  | .idle => .error .hostReadNotDefined
  | .busy => .error .hostReadNotDefined
  | .err => .error .hostReadNotDefined

/-- The host's read of a register (R40): `STATUS` and `ERRCODE` always; `OUT_LEN` after success or error; the header
latches after success; `SRC_LEN` and `MAX_OUT` are written, never read; the rest is never visible. -/
def hostRead (r : HostReg) (s : State) : Except Refusal Nat :=
  match r with
  | .status => .ok s.status.code.toNat
  | .errCode => .ok s.errCode.code.toNat
  | .outLen => if s.status = .err then .ok s.outLen else whenDone s.outLen s
  | .magic => whenDone s.magic.toNat s
  | .csize => whenDone s.csize.toNat s
  | .sizeHint => whenDone s.sizeHint.toNat s
  | .reserved => whenDone s.reserved.toNat s
  | .srcLen => .error .hostReadNotDefined
  | .maxOut => .error .hostReadNotDefined
  | .st => .error .notHostVisible
  | .cur => .error .notHostVisible
  | .lc => .error .notHostVisible
  | .lb => .error .notHostVisible
  | .litRem => .error .notHostVisible
  | .dist => .error .notHostVisible
  | .brLen => .error .notHostVisible
  | .copyRem => .error .notHostVisible

/-- The host's read of `OUT[a]` (R40, R224): only after success and below `OUT_LEN`. -/
def hostReadOut (a : Nat) (s : State) : Except Refusal Byte :=
  if s.status = .doneOk ∧ a < s.outLen then
    match s.out.read a with
    | some b => .ok b
    | none => .error .hostReadNotDefined
  else .error .hostReadNotDefined

/-- The result of a run (R197): the output after success, the error kind after an abort, nothing before the end. -/
def result (s : State) : Option (Except ErrCode (List Byte)) :=
  match s.status with
  | .doneOk => (s.out.slice 0 s.outLen).map .ok
  | .err => some (.error s.errCode)
  | .idle => none
  | .busy => none

end Sys2Proof.Machine
end

