-- ==== Sys2Proof/Safety.lean ====
section
/-! DEFINITION. Runs, what a statement assumes of a state, and the invariant of the machine (10_state.md R27, R31,
R35, R42, R44; 44_token_forms_and_laws.md R163). -/

namespace Sys2Proof

/-- What a token adds to the length of the output (R160). -/
def Token.outputLength : Token → Nat
  | .tok lits _ len => lits.length + len
  | .fin lits _ => lits.length

namespace Machine

/-! ### Runs -/

/-- `n` steps of the machine, stopping at the first fault or refusal. -/
def run : Nat → State → Host.Outcome State Fault Refusal
  | 0, s => .next s
  | n + 1, s =>
    match step s with
    | .next t => run n t
    | .fault f => .fault f
    | .refused r => .refused r

/-- `n` executions of one instruction, one after the other: a token takes the steps of R150. -/
def execTimes (i : Instr) : Nat → State → Host.Outcome State Fault Refusal
  | 0, s => .next s
  | n + 1, s =>
    match exec i s with
    | .next t => execTimes i n t
    | .fault f => .fault f
    | .refused r => .refused r

/-- Among the first `n` steps, the copying steps of `S_COPY`: the `A` of R227. -/
def copySteps : Nat → State → Nat
  | 0, _ => 0
  | n + 1, s =>
    match step s with
    | .next t => (if s.st = .copy ∧ t.st = .copy then 1 else 0) + copySteps n t
    | .fault _ => 0
    | .refused _ => 0

/-! ### What a statement assumes -/

/-- The output so far, as a list. -/
def State.output (s : State) : Option (List Byte) := s.out.slice 0 s.outLen

/-- The bytes stand at the cursor, inside the payload and inside a source that holds the whole payload. -/
def State.atPayload (s : State) (bytes : List Byte) : Prop :=
  s.cur + bytes.length ≤ s.csize.toNat ∧ hdrBytes + s.csize.toNat ≤ s.srcLen ∧
    s.src.slice (hdrBytes + s.cur) bytes.length = some bytes

/-- `n` more bytes pass the limit test of `Append` (R36). -/
def State.hasRoom (s : State) (n : Nat) : Prop := ∀ m, s.maxOut = some m → s.outLen + n ≤ m

/-- A memory with the bytes of a list written from an address on, in order. -/
def Memory.writeList : Memory → Nat → List Byte → Memory
  | m, _, [] => m
  | m, a, b :: bs => Memory.writeList (m.write a b) (a + 1) bs

/-! ### Control states -/

/-- The `STATUS` that goes with a control state (R27). -/
def Ctl.status : Ctl → Status
  | .idle => .idle
  | .magic => .busy
  | .hdr => .busy
  | .ctrl => .busy
  | .litExt => .busy
  | .lit => .busy
  | .dist => .busy
  | .lenExt => .busy
  | .copy => .busy
  | .done => .doneOk
  | .err => .err

/-- The control states after a passed header (R42). -/
def Ctl.inPayload : Ctl → Bool
  | .idle => false
  | .magic => false
  | .hdr => false
  | .ctrl => true
  | .litExt => true
  | .lit => true
  | .dist => true
  | .lenExt => true
  | .copy => true
  | .done => true
  | .err => false

/-- The terminal control states of a run (R218). -/
def Ctl.terminal : Ctl → Bool
  | .idle => false
  | .magic => false
  | .hdr => false
  | .ctrl => false
  | .litExt => false
  | .lit => false
  | .dist => false
  | .lenExt => false
  | .copy => false
  | .done => true
  | .err => true

/-- The transitions of `ST` in the table of R166 that are steps of the decoder. -/
def Ctl.follows : Ctl → List Ctl
  | .idle => []
  | .magic => [.hdr, .err]
  | .hdr => [.ctrl, .err]
  | .ctrl => [.done, .litExt, .lit]
  | .litExt => [.lit, .err]
  | .lit => [.lit, .done, .dist, .err]
  | .dist => [.lenExt, .copy, .err]
  | .lenExt => [.lenExt, .copy, .err]
  | .copy => [.copy, .ctrl, .err]
  | .done => []
  | .err => []

/-- The second component of the measure of R226. -/
def State.rank (s : State) : Nat :=
  match s.st with
  | .copy => s.copyRem + 1
  | .lit => 1
  | _ => 0

/-! ### The invariant -/

/-- Bytes that the token in progress will still append through its back-reference (the bound of R163). -/
def State.owed (s : State) : Nat :=
  match s.st with
  | .litExt => minMatch + s.lb.toNat
  | .lit => minMatch + s.lb.toNat
  | .dist => minMatch + s.lb.toNat
  | .lenExt => s.brLen
  | .copy => s.copyRem
  | _ => 0

/-- What holds in every state that a run of a loaded source goes through, and between runs. -/
structure State.Inv (s : State) : Prop where
  /-- the source memory is in canonical form -/
  srcWf : s.src.wf
  /-- the output memory is in canonical form -/
  outWf : s.out.wf
  /-- the host has placed every source byte (R214) -/
  loaded : ∀ a, a < s.srcLen → (s.src.read a).isSome
  /-- every output byte below `OUT_LEN` holds a value (R35, R44) -/
  written : ∀ a, a < s.outLen → (s.out.read a).isSome
  /-- the relation of `ST` and `STATUS` (R27) -/
  statusOf : s.status = s.st.status
  /-- `ERRCODE != NONE` exactly when `STATUS = ERR` (R216) -/
  errCodeOf : s.errCode ≠ .none ↔ s.st = .err
  /-- no output before the payload, in `S_IDLE` and after an error (R41, R190) -/
  emptyOut : s.st.inPayload = false → s.outLen = 0
  /-- the header steps start at the first payload byte (R213) -/
  curZero : s.st = .magic ∨ s.st = .hdr → s.cur = 0
  /-- a magic that has passed is the magic word (R101) -/
  magicOk : s.st = .hdr ∨ s.st.inPayload = true → s.magic = magicWord
  /-- while a run goes on the payload lies in the source (R42); after its end the host may load another -/
  payloadFits : s.st.inPayload = true → s.st ≠ .done → hdrBytes + s.csize.toNat ≤ s.srcLen
  /-- the cursor lies in the payload (R42) -/
  cursorFits : s.st.inPayload = true → s.cur ≤ s.csize.toNat
  /-- a successful run has consumed the whole payload (R196) -/
  doneAtEnd : s.st = .done → s.cur = s.csize.toNat
  /-- the extension byte is read only after a high nibble of 15 (R112) -/
  extended : s.st = .litExt → s.lc = litEsc.toNat
  /-- literal counts (R30, R32) -/
  counts : s.lc ≤ 270 ∧ s.litRem ≤ 270
  /-- the distance is valid while it is used (R42, R143) -/
  distanceOk : s.st = .lenExt ∨ s.st = .copy → 1 ≤ s.dist.toNat ∧ s.dist.toNat ≤ s.outLen
  /-- a chain is read only after a length base of 15 (R133) -/
  chained : s.st = .lenExt → s.lb = lenEsc ∧ 19 ≤ s.brLen
  /-- the copy counts down from the length, which is at least 4 (R34, R144) -/
  copyOk : s.st = .copy → s.copyRem ≤ s.brLen ∧ 4 ≤ s.brLen
  /-- the output and what is owed to it are bounded by the bytes consumed (R163) -/
  bounded : s.st.inPayload = true → s.outLen + s.owed ≤ 255 * s.cur
  /-- while a run goes on the output is within a finite limit (R42) -/
  limited : s.st.status = .busy → s.outLen ≤ s.maxOut.getD s.outLen
  /-- every register fits the width the spec gives it (R29 to R35) -/
  widths : s.cur < 2 ^ Config.curBits ∧ s.lc < 2 ^ Config.countBits ∧ s.litRem < 2 ^ Config.countBits ∧
    s.brLen < 2 ^ Config.lengthBits ∧ s.copyRem < 2 ^ Config.lengthBits ∧ s.outLen < 2 ^ Config.lengthBits

end Machine

end Sys2Proof
end

