-- ==== Sys2Proof/Certificates/Slice0/Obligations.lean ====
section
/-! DEFINITION. The statements for the provers. Each docstring names the rule of the spec it formalises. -/

open Sys2Proof Sys2Proof.Machine

/-! ### Reset, START and the host -/

/-- R210. Reset is accepted in any state and leaves the five values the spec gives; no result of a run remains. While a
run is in progress every other host command is refused: load, set-limit and START are then no moves of the host (R213,
R216, R217), and that a no-move is a refusal by name is the model's choice (log entry 10). -/
def Obligations.ResetGivesSpecifiedValues : Prop :=
  (∀ s : State, ∃ t, hostDo .reset s = .next t ∧ t.status = .idle ∧ t.errCode = .none ∧ t.st = .idle ∧
      t.outLen = 0 ∧ t.maxOut = none ∧ result t = none) ∧
    ∀ (s : State) (c : HostCmd), s.status = .busy → c ≠ .reset → ∃ r, hostDo c s = .refused r

/-- R211, R199, R218. In `S_IDLE`, `S_DONE` and `S_ERR` a step of the model changes nothing. That it is a step at all is
the model's choice (log entry 3). -/
def Obligations.RestingBlockKeepsItsState : Prop :=
  ∀ s : State, s.st = .idle ∨ s.st = .done ∨ s.st = .err → step s = .next s

/-- R213. START in `IDLE`, `DONE_OK` or `ERR` writes five registers and nothing else. While `BUSY` it is no move of the
host (R213, R217); that the no-move is a refusal by name is the model's choice (log entry 10). -/
def Obligations.StartBeginsFreshRun : Prop :=
  ∀ s : State,
    (s.status = .idle ∨ s.status = .doneOk ∨ s.status = .err →
      hostDo .start s =
        .next { s with status := .busy, errCode := .none, outLen := 0, cur := 0, st := .magic }) ∧
    (s.status = .busy → hostDo .start s = .refused .startWhileBusy)

/-- R216, R217, R214. Loading and setting the limit are moves exactly while no run is in progress; a load places the
bytes at offsets from 0 and writes `SRC_LEN`, and nothing else changes. While `BUSY` they are no moves of the host (R217);
that a no-move is a refusal by name is the model's choice (log entry 10). -/
def Obligations.HostWritesOnlyBetweenRuns : Prop :=
  ∀ (s : State) (bytes : List Byte) (m : Option Nat),
    (s.status = .busy → hostDo (.load bytes) s = .refused .hostWriteWhileBusy ∧
      hostDo (.setLimit m) s = .refused .hostWriteWhileBusy) ∧
    (s.status ≠ .busy →
      (∃ t, hostDo (.load bytes) s = .next t ∧ t.srcLen = bytes.length ∧
        (∀ a, t.src.read a = bytes[a]?) ∧ t = { s with src := t.src, srcLen := t.srcLen }) ∧
      hostDo (.setLimit m) s = .next { s with maxOut := m })

/-- R40, R35, R191, R216. What the host can read and write, and when: of `OUT` only the bytes below `OUT_LEN`, and only
after a success. R40 says which reads and writes are defined; that every other one is refused by name (a read of a
register that is never visible as `notHostVisible`, any other as `hostReadNotDefined`, a read of `OUT` at or above
`OUT_LEN`, of `SRC_LEN` or of `MAX_OUT` among them) is the model's choice (log entry 10). -/
def Obligations.HostSeesOnlyWhatIsDefined : Prop :=
  ∀ s : State, s.Inv →
    (hostRead .status s = .ok s.status.code.toNat ∧ hostRead .errCode s = .ok s.errCode.code.toNat) ∧
    (s.status = .doneOk →
      hostRead .outLen s = .ok s.outLen ∧ (∀ a, a < s.outLen → ∃ b, hostReadOut a s = .ok b ∧ s.out.read a = some b) ∧
      hostRead .magic s = .ok s.magic.toNat ∧ hostRead .csize s = .ok s.csize.toNat ∧
      hostRead .sizeHint s = .ok s.sizeHint.toNat ∧ hostRead .reserved s = .ok s.reserved.toNat) ∧
    (s.status = .err → hostRead .outLen s = .ok 0) ∧
    (s.status = .doneOk → ∀ a, s.outLen ≤ a → hostReadOut a s = .error .hostReadNotDefined) ∧
    (s.status ≠ .doneOk → ∀ a, hostReadOut a s = .error .hostReadNotDefined) ∧
    (s.status ≠ .doneOk → ∀ r, r = .magic ∨ r = .csize ∨ r = .sizeHint ∨ r = .reserved →
      hostRead r s = .error .hostReadNotDefined) ∧
    (s.status = .busy ∨ s.status = .idle → hostRead .outLen s = .error .hostReadNotDefined) ∧
    (∀ r, r = .srcLen ∨ r = .maxOut → hostRead r s = .error .hostReadNotDefined) ∧
    (∀ r, r = .st ∨ r = .cur ∨ r = .lc ∨ r = .lb ∨ r = .litRem ∨ r = .dist ∨ r = .brLen ∨ r = .copyRem →
      hostRead r s = .error .notHostVisible) ∧
    (∀ c, c ≠ .reset → ((∃ t, hostDo c s = .next t) ↔ s.status ≠ .busy))

/-! ### The header -/

/-- R101. Step `S_MAGIC`. -/
def Obligations.MagicStepRule : Prop :=
  ∀ s : State, s.st = .magic →
    (s.srcLen < 4 → step s = .next (s.raise .truncatedInput)) ∧
    ∀ b0 b1 b2 b3 : Byte, 4 ≤ s.srcLen → s.src.slice 0 4 = some [b0, b1, b2, b3] →
      step s = .next
        (if le32 b0 b1 b2 b3 ≠ 0xAABBCCEE then
          State.raise .invalidMagic { s with magic := le32 b0 b1 b2 b3 }
        else { s with magic := le32 b0 b1 b2 b3, st := .hdr })

/-- R102. Step `S_HDR`. -/
def Obligations.HeaderStepRule : Prop :=
  ∀ s : State, s.st = .hdr →
    (s.srcLen < 16 → step s = .next (s.raise .truncatedInput)) ∧
    ∀ c0 c1 c2 c3 h0 h1 h2 h3 r0 r1 r2 r3 : Byte, 16 ≤ s.srcLen →
      s.src.slice 4 12 = some [c0, c1, c2, c3, h0, h1, h2, h3, r0, r1, r2, r3] →
      step s = .next
        (if s.srcLen - 16 < (le32 c0 c1 c2 c3).toNat then
          State.raise .truncatedInput
            { s with csize := le32 c0 c1 c2 c3, sizeHint := le32 h0 h1 h2 h3, reserved := le32 r0 r1 r2 r3 }
        else
          { s with csize := le32 c0 c1 c2 c3, sizeHint := le32 h0 h1 h2 h3, reserved := le32 r0 r1 r2 r3,
                   st := .ctrl })

/-- R100, R101, R102. `HDR` completes: from `S_MAGIC` its two steps latch the four words and leave for `S_CTRL`, where
the source holds the declared payload; from `S_HDR` its second step does. -/
def Obligations.HdrCompletes : Prop :=
  ∀ (c n r : Word) (s : State), 16 ≤ s.srcLen → c.toNat ≤ s.srcLen - 16 →
    (s.st = .magic →
      exec (.hdr c n r) s = .next { s with magic := 0xAABBCCEE, st := .hdr } ∧
      execTimes (.hdr c n r) 2 s =
        .next { s with magic := 0xAABBCCEE, csize := c, sizeHint := n, reserved := r, st := .ctrl }) ∧
    (s.st = .hdr →
      exec (.hdr c n r) s = .next { s with csize := c, sizeHint := n, reserved := r, st := .ctrl })

/-! ### The steps of a token -/

/-- R110. Step `S_CTRL`. -/
def Obligations.ControlStepRule : Prop :=
  ∀ s : State, s.st = .ctrl →
    (s.cur = s.csize.toNat → step s = .next { s with status := .doneOk, st := .done }) ∧
    ∀ c : Byte, s.atPayload [c] →
      step s = .next
        (if c.toNat / 16 = 15 then
          { s with cur := s.cur + 1, lc := 15, lb := BitVec.ofNat 4 (c.toNat % 16), st := .litExt }
        else
          { s with cur := s.cur + 1, lc := c.toNat / 16, lb := BitVec.ofNat 4 (c.toNat % 16),
                   litRem := c.toNat / 16, st := .lit })

/-- R112. Step `S_LITEXT`. -/
def Obligations.LitExtStepRule : Prop :=
  ∀ s : State, s.st = .litExt →
    (s.cur = s.csize.toNat → step s = .next (s.raise .truncatedInput)) ∧
    ∀ e : Byte, s.atPayload [e] →
      step s = .next { s with cur := s.cur + 1, lc := 15 + e.toNat, litRem := 15 + e.toNat, st := .lit }

/-- R112, R113. `LEXT` completes for every value of the byte, `0xFF` too, and leaves `S_LITEXT`: it is not chained. -/
def Obligations.LextCompletes : Prop :=
  ∀ (e : Byte) (s : State), s.st = .litExt → s.cur < s.csize.toNat →
    exec (.lext e) s =
      .next { s with cur := s.cur + 1, lc := 15 + e.toNat, litRem := 15 + e.toNat, st := .lit }

/-- R120, R124. Step `S_LIT`, and the whole literal run: the bytes at the cursor are appended in order, unchanged. -/
def Obligations.LiteralStepRule : Prop :=
  ∀ s : State, s.st = .lit →
    (s.csize.toNat - s.cur < s.litRem → step s = .next (s.raise .truncatedInput)) ∧
    (∀ b : Byte, 0 < s.litRem → s.litRem ≤ s.csize.toNat - s.cur → s.atPayload [b] →
      step s = .next
        (if atLimit s.maxOut s.outLen then s.raise .outputLimit
        else
          { s with out := s.out.write s.outLen b, outLen := s.outLen + 1, cur := s.cur + 1,
                   litRem := s.litRem - 1 })) ∧
    (s.litRem = 0 → s.cur = s.csize.toNat → step s = .next { s with status := .doneOk, st := .done }) ∧
    (s.litRem = 0 → s.cur ≠ s.csize.toNat → step s = .next { s with st := .dist }) ∧
    ∀ lits : List Byte, s.litRem = lits.length → s.atPayload lits → s.hasRoom lits.length →
      run lits.length s =
        .next { s with cur := s.cur + lits.length, litRem := 0, out := s.out.writeList s.outLen lits,
                       outLen := s.outLen + lits.length }

/-- R130. Step `S_DIST`. -/
def Obligations.DistanceStepRule : Prop :=
  ∀ s : State, s.st = .dist →
    (s.csize.toNat - s.cur < 2 → step s = .next (s.raise .truncatedInput)) ∧
    ∀ d0 d1 : Byte, s.atPayload [d0, d1] →
      step s = .next
        (if (le16 d0 d1).toNat = 0 ∨ s.outLen < (le16 d0 d1).toNat then
          State.raise .invalidDistance { s with dist := le16 d0 d1, cur := s.cur + 2 }
        else if s.lb = 15 then
          { s with dist := le16 d0 d1, cur := s.cur + 2, brLen := 19, st := .lenExt }
        else
          { s with dist := le16 d0 d1, cur := s.cur + 2, brLen := 4 + s.lb.toNat,
                   copyRem := 4 + s.lb.toNat, st := .copy })

/-- R133. Step `S_LENEXT`. -/
def Obligations.ChainStepRule : Prop :=
  ∀ s : State, s.st = .lenExt →
    (s.cur = s.csize.toNat → step s = .next (s.raise .truncatedInput)) ∧
    ∀ v : Byte, s.atPayload [v] →
      step s = .next
        (if v = 0xFF then { s with cur := s.cur + 1, brLen := s.brLen + 255 }
        else
          { s with cur := s.cur + 1, brLen := s.brLen + v.toNat, copyRem := s.brLen + v.toNat, st := .copy })

/-- R136. Step `S_COPY`: the byte is read at `OUT_LEN - DIST`, `OUT_LEN` as it is in this step. -/
def Obligations.CopyStepRule : Prop :=
  ∀ s : State, s.st = .copy →
    (∀ b : Byte, 0 < s.copyRem → 1 ≤ s.dist.toNat → s.dist.toNat ≤ s.outLen →
      s.out.read (s.outLen - s.dist.toNat) = some b →
      step s = .next
        (if atLimit s.maxOut s.outLen then s.raise .outputLimit
        else
          { s with out := s.out.write s.outLen b, outLen := s.outLen + 1, copyRem := s.copyRem - 1 })) ∧
    (s.copyRem = 0 → step s = .next { s with st := .ctrl })

/-- R133. `CHAIN.MORE` completes: 255 is added and another chain byte follows. -/
def Obligations.ChainMoreCompletes : Prop :=
  ∀ s : State, s.st = .lenExt → s.cur < s.csize.toNat →
    exec .chainMore s = .next { s with cur := s.cur + 1, brLen := s.brLen + 255 }

/-- R133. `CHAIN.LAST` completes: its value is added and the copy starts. -/
def Obligations.ChainLastCompletes : Prop :=
  ∀ (v : Byte) (s : State), v ≠ 0xFF → s.st = .lenExt → s.cur < s.csize.toNat →
    exec (.chainLast v) s =
      .next { s with cur := s.cur + 1, brLen := s.brLen + v.toNat, copyRem := s.brLen + v.toNat, st := .copy }

/-- R101, R102, R112, R133, R182 T1 to T4 and T7. Where `HDR` aborts: in `S_MAGIC` the source is too short for the magic,
in `S_HDR` the header or the declared payload is cut short; where `LEXT` and the chain bytes abort: the payload is
exhausted. -/
def Obligations.CutShortUnitsAbort : Prop :=
  (∀ (c n r : Word) (s : State),
    (s.st = .magic → s.srcLen < 4 → exec (.hdr c n r) s = .next (s.raise .truncatedInput)) ∧
    (s.st = .hdr → s.srcLen < 16 → exec (.hdr c n r) s = .next (s.raise .truncatedInput)) ∧
    (s.st = .hdr → 16 ≤ s.srcLen → s.srcLen - 16 < c.toNat →
      exec (.hdr c n r) s =
        .next (State.raise .truncatedInput { s with csize := c, sizeHint := n, reserved := r }))) ∧
  ∀ (e v : Byte) (s : State), s.cur = s.csize.toNat →
    (s.st = .litExt → exec (.lext e) s = .next (s.raise .truncatedInput)) ∧
    (s.st = .lenExt → exec .chainMore s = .next (s.raise .truncatedInput) ∧
      exec (.chainLast v) s = .next (s.raise .truncatedInput))

/-! ### Chain and copy as wholes -/

/-- R134. After `k` bytes `0xFF` and a last byte `v` the length has grown by `255 k + v`; a chain whose last payload
byte is `0xFF` is truncated. -/
def Obligations.ChainAddsEveryByte : Prop :=
  ∀ (s : State) (k : Nat) (v : Byte), s.st = .lenExt → v ≠ 0xFF →
    (s.atPayload (List.replicate k 0xFF ++ [v]) →
      run (k + 1) s =
        .next { s with cur := s.cur + (k + 1), brLen := s.brLen + (255 * k + v.toNat),
                       copyRem := s.brLen + (255 * k + v.toNat), st := .copy }) ∧
    (s.atPayload (List.replicate k 0xFF) → s.cur + k = s.csize.toNat →
      ∃ t, run (k + 1) s = .next t ∧ t.st = .err ∧ t.errCode = .truncatedInput)

/-- R137. The copy as a recurrence and its closed form. -/
def Obligations.CopyIsGrowthAware : Prop :=
  ∀ (s : State) (o : List Byte), s.st = .copy → s.output = some o → 1 ≤ s.dist.toNat →
    s.dist.toNat ≤ s.outLen → s.hasRoom s.copyRem →
    ∃ t, run s.copyRem s = .next t ∧ t.outLen = s.outLen + s.copyRem ∧
      (∀ a, a < s.outLen → t.out.read a = o[a]?) ∧
      (∀ i, i < s.copyRem →
        t.out.read (s.outLen + i) = t.out.read (s.outLen + i - s.dist.toNat) ∧
        t.out.read (s.outLen + i) = o[s.outLen - s.dist.toNat + i % s.dist.toNat]?)

/-- R139. Distance 1 repeats the last byte. -/
def Obligations.DistanceOneRepeatsLastByte : Prop :=
  ∀ (s : State) (o : List Byte) (b : Byte), s.st = .copy → s.dist = 1 → s.output = some (o ++ [b]) →
    s.hasRoom s.copyRem →
    ∃ t, run s.copyRem s = .next t ∧ t.output = some (o ++ [b] ++ List.replicate s.copyRem b)

/-- R141. With `DIST >= BRLEN` the copy is a plain copy of old bytes. -/
def Obligations.NonOverlappingCopyIsPlain : Prop :=
  ∀ (s : State) (o : List Byte), s.st = .copy → s.output = some o → 1 ≤ s.dist.toNat →
    s.dist.toNat ≤ s.outLen → s.copyRem ≤ s.dist.toNat → s.hasRoom s.copyRem →
    ∃ t, run s.copyRem s = .next t ∧
      t.output = some (o ++ (o.drop (s.outLen - s.dist.toNat)).take s.copyRem)

/-! ### Whole tokens -/

/-- R150, R151. A whole `TOK.SS`: `literalCount + backRefLength + 4` steps. -/
def Obligations.TokSSRunsWholeToken : Prop :=
  ∀ (s : State) (hi lo : Nibble) (lits : List Byte) (dist : Half) (o : List Byte),
    hi ≠ 15 → lo ≠ 15 → lits.length = hi.toNat → s.st = .ctrl → s.output = some o →
    s.atPayload (controlByte hi lo :: (lits ++ bytes16 dist)) →
    1 ≤ dist.toNat → dist.toNat ≤ s.outLen + lits.length → s.hasRoom (lits.length + (4 + lo.toNat)) →
    exec (.tokSS hi lo) s = .next { s with cur := s.cur + 1, lc := lits.length, lb := lo, litRem := lits.length, st := .lit } ∧
    execTimes (.tokSS hi lo) (lits.length + (4 + lo.toNat) + 4) s =
      .next { s with
        cur := s.cur + (3 + lits.length), lc := lits.length, lb := lo, litRem := 0, dist := dist,
        brLen := 4 + lo.toNat, copyRem := 0,
        out := s.out.writeList s.outLen (lits ++ copied dist.toNat (4 + lo.toNat) (o ++ lits)),
        outLen := s.outLen + (lits.length + (4 + lo.toNat)) }

/-- R150, R152. A whole `TOK.XS`. -/
def Obligations.TokXSRunsWholeToken : Prop :=
  ∀ (s : State) (lo : Nibble) (ext : Byte) (lits : List Byte) (dist : Half) (o : List Byte),
    lo ≠ 15 → lits.length = 15 + ext.toNat → s.st = .ctrl → s.output = some o →
    s.atPayload (controlByte 15 lo :: ext :: (lits ++ bytes16 dist)) →
    1 ≤ dist.toNat → dist.toNat ≤ s.outLen + lits.length → s.hasRoom (lits.length + (4 + lo.toNat)) →
    exec (.tokXS lo) s = .next { s with cur := s.cur + 1, lc := 15, lb := lo, st := .litExt } ∧
    execTimes (.tokXS lo) (lits.length + (4 + lo.toNat) + 5) s =
      .next { s with
        cur := s.cur + (4 + lits.length), lc := lits.length, lb := lo, litRem := 0, dist := dist,
        brLen := 4 + lo.toNat, copyRem := 0,
        out := s.out.writeList s.outLen (lits ++ copied dist.toNat (4 + lo.toNat) (o ++ lits)),
        outLen := s.outLen + (lits.length + (4 + lo.toNat)) }

/-- R150, R153. A whole `TOK.SX` with a chain of `k` bytes `0xFF` and a last byte `v`. -/
def Obligations.TokSXRunsWholeToken : Prop :=
  ∀ (s : State) (hi : Nibble) (lits : List Byte) (dist : Half) (k : Nat) (v : Byte) (o : List Byte),
    hi ≠ 15 → v ≠ 0xFF → lits.length = hi.toNat → s.st = .ctrl → s.output = some o →
    s.atPayload (controlByte hi 15 :: (lits ++ bytes16 dist ++ (List.replicate k 0xFF ++ [v]))) →
    1 ≤ dist.toNat → dist.toNat ≤ s.outLen + lits.length →
    s.hasRoom (lits.length + (19 + 255 * k + v.toNat)) →
    exec (.tokSX hi) s = .next { s with cur := s.cur + 1, lc := lits.length, lb := 15, litRem := lits.length, st := .lit } ∧
    execTimes (.tokSX hi) (lits.length + (19 + 255 * k + v.toNat) + k + 5) s =
      .next { s with
        cur := s.cur + (4 + lits.length + k), lc := lits.length, lb := 15, litRem := 0, dist := dist,
        brLen := 19 + 255 * k + v.toNat, copyRem := 0,
        out := s.out.writeList s.outLen (lits ++ copied dist.toNat (19 + 255 * k + v.toNat) (o ++ lits)),
        outLen := s.outLen + (lits.length + (19 + 255 * k + v.toNat)) }

/-- R150, R154. A whole `TOK.XX`. -/
def Obligations.TokXXRunsWholeToken : Prop :=
  ∀ (s : State) (ext : Byte) (lits : List Byte) (dist : Half) (k : Nat) (v : Byte) (o : List Byte),
    v ≠ 0xFF → lits.length = 15 + ext.toNat → s.st = .ctrl → s.output = some o →
    s.atPayload (0xFF :: ext :: (lits ++ bytes16 dist ++ (List.replicate k 0xFF ++ [v]))) →
    1 ≤ dist.toNat → dist.toNat ≤ s.outLen + lits.length →
    s.hasRoom (lits.length + (19 + 255 * k + v.toNat)) →
    exec .tokXX s = .next { s with cur := s.cur + 1, lc := 15, lb := 15, st := .litExt } ∧
    execTimes .tokXX (lits.length + (19 + 255 * k + v.toNat) + k + 6) s =
      .next { s with
        cur := s.cur + (5 + lits.length + k), lc := lits.length, lb := 15, litRem := 0, dist := dist,
        brLen := 19 + 255 * k + v.toNat, copyRem := 0,
        out := s.out.writeList s.outLen (lits ++ copied dist.toNat (19 + 255 * k + v.toNat) (o ++ lits)),
        outLen := s.outLen + (lits.length + (19 + 255 * k + v.toNat)) }

/-- R155, R83. A whole `FIN`, with and without the extension byte: the run ends with `DONE_OK`, and the low nibble
has no effect but in `LB`. -/
def Obligations.FinEndsTheRun : Prop :=
  ∀ (s : State) (hi lo : Nibble) (ext : Byte) (lits : List Byte), s.st = .ctrl → s.hasRoom lits.length →
    (hi ≠ 15 → lits.length = hi.toNat → s.atPayload (controlByte hi lo :: lits) →
      s.cur + (1 + lits.length) = s.csize.toNat →
      exec (.fin hi lo) s = .next { s with cur := s.cur + 1, lc := lits.length, lb := lo, litRem := lits.length, st := .lit } ∧
      execTimes (.fin hi lo) (lits.length + 2) s =
        .next { s with
          cur := s.cur + (1 + lits.length), lc := lits.length, lb := lo, litRem := 0,
          out := s.out.writeList s.outLen lits, outLen := s.outLen + lits.length,
          status := .doneOk, st := .done }) ∧
    (hi = 15 → lits.length = 15 + ext.toNat → s.atPayload (controlByte hi lo :: ext :: lits) →
      s.cur + (2 + lits.length) = s.csize.toNat →
      exec (.fin hi lo) s = .next { s with cur := s.cur + 1, lc := 15, lb := lo, st := .litExt } ∧
      execTimes (.fin hi lo) (lits.length + 3) s =
        .next { s with
          cur := s.cur + (2 + lits.length), lc := lits.length, lb := lo, litRem := 0,
          out := s.out.writeList s.outLen lits, outLen := s.outLen + lits.length,
          status := .doneOk, st := .done })

/-- R150, R79. The machine itself runs a whole token that stands at the cursor, in any form, as R150 says. -/
def Obligations.StepsRunWholeToken : Prop :=
  ∀ (s : State) (lits : List Byte) (dist : Half) (len : Nat) (o : List Byte),
    (Token.tok lits dist len).wellFormed = true → s.st = .ctrl → s.output = some o →
    s.atPayload (encodeToken (.tok lits dist len)) → distanceValid o (.tok lits dist len) = true →
    s.hasRoom (lits.length + len) →
    ∃ n t, run n s = .next t ∧ t.st = .ctrl ∧ t.status = s.status ∧
      t.cur = s.cur + (encodeToken (.tok lits dist len)).length ∧
      t.output = some (applyToken o (.tok lits dist len)) ∧ t.outLen = s.outLen + lits.length + len ∧
      n = lits.length + len + 4 + (encodeCount lits.length).2.length + (encodeLength len).2.length

/-! ### Frames -/

/-- The frame of the token forms and of `FIN`: what one execution leaves unchanged, by the control state. The only
output address stored to is `OUT_LEN`, and only in `S_LIT` and `S_COPY` (R36, R57). -/
def Obligations.TokenFrame : Prop :=
  ∀ (i : Instr) (s t : State), i.site = .token → exec i s = .next t →
    t.src = s.src ∧ t.srcLen = s.srcLen ∧ t.maxOut = s.maxOut ∧
    t.magic = s.magic ∧ t.csize = s.csize ∧ t.sizeHint = s.sizeHint ∧ t.reserved = s.reserved ∧
    (∀ a, a ≠ s.outLen → t.out.read a = s.out.read a) ∧
    (s.st ≠ .lit → s.st ≠ .copy → t.out = s.out) ∧
    (s.st ≠ .ctrl → t.lb = s.lb) ∧
    (s.st ≠ .ctrl → s.st ≠ .litExt → t.lc = s.lc) ∧
    (s.st = .dist ∨ s.st = .lenExt ∨ s.st = .copy → t.litRem = s.litRem) ∧
    (s.st ≠ .dist → t.dist = s.dist) ∧
    (s.st ≠ .dist → s.st ≠ .lenExt → t.brLen = s.brLen) ∧
    (s.st = .ctrl ∨ s.st = .litExt ∨ s.st = .lit → t.copyRem = s.copyRem) ∧
    (s.st = .copy → t.cur = s.cur) ∧
    (t.st ≠ .err → s.st ≠ .lit → s.st ≠ .copy → t.outLen = s.outLen) ∧
    (t.st ≠ .err → t.errCode = s.errCode) ∧
    (t.st ≠ .err → t.st ≠ .done → t.status = s.status)

/-- The frame of `HDR`: only the header latches, `ST`, and on an abort what R190 writes. -/
def Obligations.HdrFrame : Prop :=
  ∀ (c n r : Word) (s t : State), exec (.hdr c n r) s = .next t →
    t.src = s.src ∧ t.srcLen = s.srcLen ∧ t.maxOut = s.maxOut ∧ t.cur = s.cur ∧ t.lc = s.lc ∧ t.lb = s.lb ∧
    t.litRem = s.litRem ∧ t.dist = s.dist ∧ t.brLen = s.brLen ∧ t.copyRem = s.copyRem ∧
    t.out = s.out ∧ (∀ a, t.out.read a = s.out.read a) ∧
    (s.st ≠ .magic → t.magic = s.magic) ∧
    (s.st ≠ .hdr → t.csize = s.csize ∧ t.sizeHint = s.sizeHint ∧ t.reserved = s.reserved) ∧
    (t.st ≠ .err → t.status = s.status ∧ t.errCode = s.errCode ∧ t.outLen = s.outLen)

/-- The frame of `LEXT`, `CHAIN.MORE` and `CHAIN.LAST`: nothing is stored; `LEXT` writes `CUR`, `LC`, `LITREM`; a chain
byte writes `CUR`, `BRLEN` and, the last one, `COPYREM`. -/
def Obligations.ExtensionFrame : Prop :=
  ∀ (i : Instr) (s t : State), i.site = .litCount ∨ i.site = .chain → exec i s = .next t →
    t.src = s.src ∧ t.srcLen = s.srcLen ∧ t.maxOut = s.maxOut ∧
    t.magic = s.magic ∧ t.csize = s.csize ∧ t.sizeHint = s.sizeHint ∧ t.reserved = s.reserved ∧
    t.out = s.out ∧ (∀ a, t.out.read a = s.out.read a) ∧ t.lb = s.lb ∧ t.dist = s.dist ∧
    (i.site = .litCount → t.brLen = s.brLen ∧ t.copyRem = s.copyRem) ∧
    (i.site = .chain → t.lc = s.lc ∧ t.litRem = s.litRem) ∧
    (i = .chainMore → t.copyRem = s.copyRem) ∧
    (t.st ≠ .err → t.status = s.status ∧ t.errCode = s.errCode ∧ t.outLen = s.outLen)

/-! ### Whole-machine rules -/

/-- R22, R23, R24. No step writes the host's inputs. -/
def Obligations.DecoderNeverWritesInputs : Prop :=
  ∀ s t : State, step s = .next t → t.src = s.src ∧ t.srcLen = s.srcLen ∧ t.maxOut = s.maxOut

/-- R28. `MAGIC` is written only in `S_MAGIC`, the other three latches only in `S_HDR`. -/
def Obligations.HeaderLatchesHeld : Prop :=
  ∀ s t : State, step s = .next t →
    (s.st ≠ .magic → t.magic = s.magic) ∧
    (s.st ≠ .hdr → t.csize = s.csize ∧ t.sizeHint = s.sizeHint ∧ t.reserved = s.reserved)

/-- R43. The output length does not shrink while a run goes on, grows by at most the one byte of an `Append`, and only
in `S_LIT` and `S_COPY`; an output byte once written keeps its value. -/
def Obligations.OutputOnlyGrows : Prop :=
  ∀ s t : State, step s = .next t →
    (∀ a, a ≠ s.outLen → t.out.read a = s.out.read a) ∧
    (t.status ≠ .err → s.outLen ≤ t.outLen ∧ t.outLen ≤ s.outLen + 1) ∧
    (s.outLen < t.outLen → s.st = .lit ∨ s.st = .copy)

/-- R29, R162. The cursor never decreases and advances by exactly the payload bytes the step consumes: none in the
header steps, at the end test of `S_CTRL`, at the ending step and the aborts of `S_LIT`, where a byte is missing, and in
`S_COPY`; one for a control byte, an extension byte, a chain byte and a literal byte; two for a distance, whether it is
then valid or not. -/
def Obligations.CursorOnlyAdvances : Prop :=
  ∀ s t : State, step s = .next t →
    s.cur ≤ t.cur ∧ t.cur ≤ s.cur + 2 ∧
    (s.st = .magic ∨ s.st = .hdr → t.cur = s.cur) ∧
    (s.st = .ctrl → s.cur = s.csize.toNat → t.cur = s.cur) ∧
    (s.st = .ctrl → s.cur ≠ s.csize.toNat → t.cur = s.cur + 1) ∧
    (s.st = .litExt ∨ s.st = .lenExt → s.cur = s.csize.toNat → t.cur = s.cur) ∧
    (s.st = .litExt ∨ s.st = .lenExt → s.cur ≠ s.csize.toNat → t.cur = s.cur + 1) ∧
    (s.st = .lit → t.st = .lit → t.cur = s.cur + 1) ∧
    (s.st = .lit → t.st ≠ .lit → t.cur = s.cur) ∧
    (s.st = .dist → s.csize.toNat - s.cur < 2 → t.cur = s.cur) ∧
    (s.st = .dist → 2 ≤ s.csize.toNat - s.cur → t.cur = s.cur + 2) ∧
    (s.st = .copy → t.cur = s.cur)

/-- R166. Every step from a state with a step follows an edge of the table. -/
def Obligations.StepFollowsTransitionTable : Prop :=
  ∀ s t : State, s.st.status = .busy → step s = .next t → t.st ∈ s.st.follows

/-- R190, R188, R191. A step that aborts sets `STATUS`, an error kind, `OUT_LEN = 0` and `S_ERR`; it has appended
nothing and has written no more than `MAGIC` in `S_MAGIC`, the other latches in `S_HDR`, `DIST` and `CUR` in
`S_DIST`. -/
def Obligations.AbortIsPrecise : Prop :=
  ∀ s t : State, s.st ≠ .err → step s = .next t → t.st = .err →
    t.errCode ≠ .none ∧
    ∃ u, t = { u with status := .err, errCode := t.errCode, outLen := 0, st := .err } ∧
      (u = s ∨ (s.st = .magic ∧ u = { s with magic := t.magic }) ∨
        (s.st = .hdr ∧ u = { s with csize := t.csize, sizeHint := t.sizeHint, reserved := t.reserved }) ∨
        (s.st = .dist ∧ u = { s with dist := t.dist, cur := s.cur + 2 }))

/-- R180 to R184. The complete list of what can abort a step, kind by kind. -/
def Obligations.AbortCausesComplete : Prop :=
  ∀ s t : State, s.st ≠ .err → step s = .next t → t.st = .err →
    (t.errCode = .invalidMagic ∧ s.st = .magic ∧ 4 ≤ s.srcLen ∧ t.magic ≠ 0xAABBCCEE) ∨
    (t.errCode = .truncatedInput ∧
      ((s.st = .magic ∧ s.srcLen < 4) ∨ (s.st = .hdr ∧ s.srcLen < 16) ∨
        (s.st = .hdr ∧ s.srcLen - 16 < t.csize.toNat) ∨ (s.st = .litExt ∧ s.cur = s.csize.toNat) ∨
        (s.st = .lit ∧ s.csize.toNat - s.cur < s.litRem) ∨ (s.st = .dist ∧ s.csize.toNat - s.cur < 2) ∨
        (s.st = .lenExt ∧ s.cur = s.csize.toNat))) ∨
    (t.errCode = .invalidDistance ∧ s.st = .dist ∧ (t.dist.toNat = 0 ∨ s.outLen < t.dist.toNat)) ∨
    (t.errCode = .outputLimit ∧ (s.st = .lit ∧ 0 < s.litRem ∨ s.st = .copy ∧ 0 < s.copyRem) ∧
      ∃ m, s.maxOut = some m ∧ m ≤ s.outLen)

/-- R196. A step that ends a run successfully has found the payload exhausted and changes `STATUS` and `ST` alone. -/
def Obligations.FinishOnlyAtPayloadEnd : Prop :=
  ∀ s t : State, s.st ≠ .done → step s = .next t → t.st = .done →
    (s.st = .ctrl ∨ s.st = .lit) ∧ s.cur = s.csize.toNat ∧ t = { s with status := .doneOk, st := .done }

/-- R24, R36, R184. No step takes the output past a finite limit. -/
def Obligations.LimitNeverPassed : Prop :=
  ∀ (s t : State) (m : Nat), s.maxOut = some m → s.outLen ≤ m → step s = .next t → t.outLen ≤ m

/-! ### The invariant -/

/-- R41. The state after reset meets the invariant. -/
def Obligations.ResetMeetsInvariant : Prop := State.reset.Inv

/-- R27, R31, R42, R163. Every step keeps the invariant, whether a run reaches the state or not. -/
def Obligations.StepKeepsInvariant : Prop := ∀ s t : State, s.Inv → step s = .next t → t.Inv

/-- R213, R216. Every host command that is accepted keeps the invariant. For reset this rests on the model's reset
values: 0 in the registers the spec leaves unspecified (log entry 1: `LC` and `LITREM` are at most 270, every register
fits its width) and empty memories (log entry 2). -/
def Obligations.HostKeepsInvariant : Prop :=
  ∀ (c : HostCmd) (s t : State), s.Inv → hostDo c s = .next t → t.Inv

/-- R185, R166, R143. Nothing else faults: in every state of the invariant a step has a next state. From `S_MAGIC` to
`S_COPY` that is the spec's; in `S_IDLE`, `S_DONE` and `S_ERR`, which have no step in the spec (R211, R190, R196, R218),
it is the model's choice of an idle step (log entry 3). -/
def Obligations.NothingElseFaults : Prop := ∀ s : State, s.Inv → ∃ t, step s = .next t

/-! ### Runs -/

/-- R163. The output of a run never exceeds `255 * CSIZE`. -/
def Obligations.OutputBounded : Prop :=
  ∀ (s t : State) (n : Nat), s.Inv → run n s.start = .next t → t.outLen ≤ 255 * t.csize.toNat

/-- R226. The measure of the spec decreases at every step after the header that does not end the run. -/
def Obligations.MeasureDecreases : Prop :=
  ∀ s t : State, s.Inv → s.st.inPayload = true → s.st ≠ .done → step s = .next t → t.st.terminal = false →
    t.csize.toNat - t.cur < s.csize.toNat - s.cur ∨
      (t.csize.toNat - t.cur = s.csize.toNat - s.cur ∧ t.rank < s.rank)

/-- R226, R227. Every run ends, within `3 + 3 * CSIZE + A` steps for some `A <= 255 * CSIZE`. -/
def Obligations.EveryRunEnds : Prop :=
  ∀ s : State, s.Inv → ∃ n t, run n s.start = .next t ∧ t.st.terminal = true ∧
    n ≤ 3 + 3 * t.csize.toNat + copySteps n s.start ∧ copySteps n s.start ≤ 255 * t.csize.toNat ∧
    ∀ m, s.maxOut = some m → copySteps n s.start ≤ m

/-- R157. A run from START, on any source and any limit, ends with the result that the function `decode` of R156
gives, whatever an earlier run left in the registers and in `OUT`. -/
def Obligations.RunAgreesWithDecode : Prop :=
  ∀ (s : State) (bytes : List Byte), ∃ n t, run n (s.load bytes).start = .next t ∧ t.st.terminal = true ∧
    result t = some (decodeSource bytes s.maxOut)

/-- R158, R159, R215. The result of a run depends on the magic-headed payload and on `MAX_OUT` alone: not on
`SIZEHINT`, `RESERVED`, trailing bytes, or anything an earlier run left. -/
def Obligations.ResultIndependent : Prop :=
  ∀ (s₁ s₂ : State) (payload trail₁ trail₂ : List Byte) (h₁ h₂ r₁ r₂ : Word),
    payload.length < 2 ^ 32 → s₁.maxOut = s₂.maxOut →
    ∃ n₁ n₂ t₁ t₂,
      run n₁ (s₁.load (encode (.hdr (BitVec.ofNat 32 payload.length) h₁ r₁) ++ payload ++ trail₁)).start = .next t₁ ∧
      run n₂ (s₂.load (encode (.hdr (BitVec.ofNat 32 payload.length) h₂ r₂) ++ payload ++ trail₂)).start = .next t₂ ∧
      t₁.st.terminal = true ∧ t₂.st.terminal = true ∧ result t₁ = result t₂

/-- R184, R36 and section 4 of 95_test_vectors.md. A limit at or above the output length changes nothing; a lower one
gives `OutputLimit`. -/
def Obligations.LimitIsMonotone : Prop :=
  ∀ (s : State) (bytes out : List Byte) (n m : Nat) (t : State), s.maxOut = none →
    run n (s.load bytes).start = .next t → result t = some (.ok out) →
    ∃ k u, run k (State.load bytes { s with maxOut := some m }).start = .next u ∧
      result u = some (if out.length ≤ m then .ok out else .error .outputLimit)

/-- R70, R83, R150, R160. A source that decodes is a sequence of tokens, a final one only at the end; its output is
what the tokens give one after the other, and its length the sum of their literal counts and lengths. -/
def Obligations.SuccessIsATokenSequence : Prop :=
  ∀ (bytes out : List Byte), decodeSource bytes none = .ok out →
    ∃ toks : List Token,
      (bytes.drop 16).take (wordAt bytes 4).toNat = toks.flatMap encodeToken ∧
      out = toks.foldl applyToken [] ∧
      out.length = (toks.map Token.outputLength).sum ∧
      ∀ t ∈ toks.dropLast, ∃ lits dist len, t = .tok lits dist len

/-- R90, R150, R155, R156. The assembled source of well-formed back-reference tokens, each distance valid where it is
used, and then a final token or none, decodes to what the tokens give one after the other: a payload may end after a
final token, after a back-reference, or be empty. -/
def Obligations.AssembledTokensDecode : Prop :=
  ∀ (toks last : List Token) (h r : Word) (trail : List Byte),
    (∀ t ∈ toks, t.wellFormed = true ∧ ∃ l d n, t = .tok l d n) →
    (last = [] ∨ ∃ lits lb, last = [.fin lits lb] ∧ (Token.fin lits lb).wellFormed = true) →
    (∀ pre t post, toks = pre ++ t :: post → distanceValid (pre.foldl applyToken []) t = true) →
    ((toks ++ last).flatMap encodeToken).length < 2 ^ 32 →
    decodeSource (assemble { hint := h, rsv := r, body := (toks ++ last).map Line.token, trail := trail }) none =
      .ok ((toks ++ last).foldl applyToken [])

/-! ### Encoding -/

/-- R71, R73, R74, R77, R81, R83. Every well-formed instruction, with every operand at every value, is decoded from its
own bytes. -/
def Obligations.DecodeOfEncode : Prop :=
  ∀ (i : Instr) (rest : List Byte), i.wellFormed = true → i.fits rest = true →
    decode i.site (encode i ++ rest) = .ok i

/-- R80, R81. What is decoded is well-formed and re-encodes to the bytes it was decoded from. -/
def Obligations.EncodeOfDecode : Prop :=
  ∀ (w : Site) (bytes : List Byte) (i : Instr), decode w bytes = .ok i →
    i.wellFormed = true ∧ i.site = w ∧ ∃ rest, bytes = encode i ++ rest ∧ i.fits rest = true

/-- R72, R79, R80. A well-formed token is parsed from its own bytes, the bytes after it left alone. -/
def Obligations.ParseOfEncodedToken : Prop :=
  ∀ (t : Token) (rest : List Byte), t.wellFormed = true → ((∃ lits lb, t = .fin lits lb) → rest = []) →
    parseToken (encodeToken t ++ rest) = .ok (t, rest)

/-- R80. Each value has exactly one spelling: bytes that parse as a token are that token's encoding. -/
def Obligations.TokenSpellingUnique : Prop :=
  ∀ (bytes rest : List Byte) (t : Token), parseToken bytes = .ok (t, rest) → bytes = encodeToken t ++ rest

/-- R81, R84. The opcode map as match and mask, first hit wins; no control byte is without a form. -/
def Obligations.OpcodeMapByMask : Prop :=
  ∀ c : Byte, tokenForm (hiNibble c) (loNibble c) =
    if c &&& 0xFF = 0xFF then .tokXX
    else if c &&& 0xF0 = 0xF0 then .tokXS (c.extractLsb' 0 4)
    else if c &&& 0x0F = 0x0F then .tokSX (c.extractLsb' 4 4)
    else .tokSS (c.extractLsb' 4 4) (c.extractLsb' 0 4)

/-- R71, R81, R82, R112, R133. A few words written out from the encoding tables. -/
def Obligations.SampleWordsDecode : Prop :=
  decode .container [0xEE, 0xCC, 0xBB, 0xAA, 2, 0, 0, 0, 0xFF, 0xFF, 0xFF, 0xFF, 0xEF, 0xBE, 0xAD, 0xDE, 0x10, 0x41] =
      .ok (.hdr 2 0xFFFFFFFF 0xDEADBEEF) ∧
    decode .token [0x20, 0x41, 0x42, 0x01, 0x00] = .ok (.tokSS 2 0) ∧
    decode .token [0xF0, 0x05, 0x30] = .ok (.tokXS 0) ∧
    decode .token [0x1F, 0x5A, 0x01, 0x00, 0x0A] = .ok (.tokSX 1) ∧
    decode .token [0xFF, 0x00, 0x61] = .ok .tokXX ∧
    decode .token [0x1F, 0x41] = .ok (.fin 1 15) ∧
    decode .litCount [0x05] = .ok (.lext 5) ∧
    decode .chain [0xFF, 0x0A] = .ok .chainMore ∧
    decode .chain [0x0A] = .ok (.chainLast 10)

/-- R9, R166. A step runs the instruction that the bytes at the fetch position decode to: at `S_MAGIC` and `S_HDR` the
source, at `S_CTRL`, `S_LITEXT` and `S_LENEXT` the rest of the payload; and in `S_LIT`, `S_DIST` and `S_COPY` the token in
progress. How that token is named, by `State.token` from `LC` and `LB` (log entry 8) and as `FIN` where
`LITREM = CSIZE - CUR` (log entry 7), is the model's choice, since no token object is state (R39): the step rule of
these three states is the same for every form, so this clause would hold of any other form `State.token` named. -/
def Obligations.StepRunsDecodedInstruction : Prop :=
  (∀ (s : State) (i : Instr) (bytes : List Byte), s.st = .magic ∨ s.st = .hdr →
    s.src.slice 0 s.srcLen = some bytes → decode .container bytes = .ok i → step s = exec i s) ∧
  (∀ (s : State) (i : Instr) (bytes : List Byte) (w : Site),
    (s.st = .ctrl ∧ w = .token) ∨ (s.st = .litExt ∧ w = .litCount) ∨ (s.st = .lenExt ∧ w = .chain) →
    s.atPayload bytes → s.cur + bytes.length = s.csize.toNat → decode w bytes = .ok i → step s = exec i s) ∧
  (∀ s : State, (s.st = .lit → s.litRem ≠ s.csize.toNat - s.cur → step s = exec s.token s) ∧
    (s.st = .lit → s.litRem = s.csize.toNat - s.cur → step s = exec (.fin s.hiNib s.lb) s) ∧
    (s.st = .dist ∨ s.st = .copy → step s = exec s.token s))
end

