-- ==== Sys2Proof/Laws/Bits.lean ====
section
/-! SUPPORT. Nibbles, little-endian halves and words, and the byte lists that spell them. -/

namespace Sys2Proof

open Machine

theorem hiNibble_toNat (c : Byte) : (hiNibble c).toNat = c.toNat / 16 := by
  have := c.isLt
  simp only [hiNibble, BitVec.toNat_ofNat]
  omega

theorem loNibble_toNat (c : Byte) : (loNibble c).toNat = c.toNat % 16 := by
  simp only [loNibble, BitVec.toNat_ofNat]
  omega

theorem controlByte_toNat (hi lo : Nibble) : (controlByte hi lo).toNat = 16 * hi.toNat + lo.toNat := by
  have := hi.isLt
  have := lo.isLt
  simp only [controlByte, BitVec.toNat_ofNat]
  omega

@[simp] theorem hiNibble_controlByte (hi lo : Nibble) : hiNibble (controlByte hi lo) = hi := by
  have := lo.isLt
  apply BitVec.eq_of_toNat_eq
  rw [hiNibble_toNat, controlByte_toNat]
  omega

@[simp] theorem loNibble_controlByte (hi lo : Nibble) : loNibble (controlByte hi lo) = lo := by
  have := lo.isLt
  apply BitVec.eq_of_toNat_eq
  rw [loNibble_toNat, controlByte_toNat]
  omega

@[simp] theorem controlByte_nibbles (c : Byte) : controlByte (hiNibble c) (loNibble c) = c := by
  apply BitVec.eq_of_toNat_eq
  rw [controlByte_toNat, hiNibble_toNat, loNibble_toNat]
  omega

theorem le16_toNat (b0 b1 : Byte) : (le16 b0 b1).toNat = b0.toNat + 256 * b1.toNat := by
  have := b0.isLt
  have := b1.isLt
  simp only [le16, BitVec.toNat_ofNat]
  omega

theorem le32_toNat (b0 b1 b2 b3 : Byte) :
    (le32 b0 b1 b2 b3).toNat = b0.toNat + 256 * b1.toNat + 65536 * b2.toNat + 16777216 * b3.toNat := by
  have := b0.isLt
  have := b1.isLt
  have := b2.isLt
  have := b3.isLt
  simp only [le32, BitVec.toNat_ofNat]
  omega

theorem byteOf_toNat (w k : Nat) : (byteOf w k).toNat = w / 256 ^ k % 256 := by
  simp [byteOf]

@[simp] theorem le16_bytes (w : Half) : le16 (byteOf w.toNat 0) (byteOf w.toNat 1) = w := by
  have := w.isLt
  apply BitVec.eq_of_toNat_eq
  rw [le16_toNat, byteOf_toNat, byteOf_toNat]
  omega

@[simp] theorem le32_bytes (w : Word) :
    le32 (byteOf w.toNat 0) (byteOf w.toNat 1) (byteOf w.toNat 2) (byteOf w.toNat 3) = w := by
  have := w.isLt
  apply BitVec.eq_of_toNat_eq
  rw [le32_toNat, byteOf_toNat, byteOf_toNat, byteOf_toNat, byteOf_toNat]
  omega

theorem bytes16_le16 (b0 b1 : Byte) : bytes16 (le16 b0 b1) = [b0, b1] := by
  have := b0.isLt
  have := b1.isLt
  have h0 : byteOf (le16 b0 b1).toNat 0 = b0 := by
    apply BitVec.eq_of_toNat_eq
    rw [byteOf_toNat, le16_toNat]
    omega
  have h1 : byteOf (le16 b0 b1).toNat 1 = b1 := by
    apply BitVec.eq_of_toNat_eq
    rw [byteOf_toNat, le16_toNat]
    omega
  simp [bytes16, h0, h1]

@[simp] theorem length_bytes16 (w : Half) : (bytes16 w).length = 2 := rfl

@[simp] theorem length_bytes32 (w : Word) : (bytes32 w).length = 4 := rfl

end Sys2Proof
end

