-- ==== Sys2Proof/Laws/Encoding.lean ====
section
/-! SUPPORT. The spelling of counts and lengths (30_encoding.md R80), both ways: what is taken from its own spelling,
and what a taken value was spelled by. -/

namespace Sys2Proof

open Machine

/-- A nibble is at most 14 or the escape. -/
theorem nibble_cases (n : Nibble) : n = 15 ∨ n.toNat ≤ 14 := by
  have := n.isLt
  by_cases h : n.toNat = 15
  · exact .inl (BitVec.eq_of_toNat_eq h)
  · exact .inr (by omega)

theorem takeCount_encodeCount (n : Nat) (h : n ≤ 270) (rest : List Byte) :
    takeCount (encodeCount n).1 ((encodeCount n).2 ++ rest) = .ok (n, rest) := by
  unfold encodeCount
  split
  · have hne : (BitVec.ofNat 4 n : Nibble) ≠ litEsc := by
      intro h
      have := congrArg BitVec.toNat h
      simp [litEsc] at this
      omega
    have e : n % 2 ^ 4 = n := by omega
    simp only [takeCount, if_neg hne, List.nil_append, BitVec.toNat_ofNat, e]
  · simp [takeCount, litEsc]
    omega

theorem takeChain_spelled (k len : Nat) (v : Byte) (hv : v ≠ chainCont) (rest : List Byte) :
    takeChain len (List.replicate k chainCont ++ v :: rest) = .ok (len + 255 * k + v.toNat, rest) := by
  induction k generalizing len with
  | zero => simp [takeChain, hv]
  | succ k ih =>
    simp only [List.replicate_succ, List.cons_append, takeChain, if_true, ih]
    simp [chainCont]
    omega

theorem takeLength_encodeLength (n : Nat) (h : 4 ≤ n) (rest : List Byte) :
    takeLength (encodeLength n).1 ((encodeLength n).2 ++ rest) = .ok (n, rest) := by
  unfold encodeLength
  split
  · have hne : (BitVec.ofNat 4 (n - minMatch) : Nibble) ≠ lenEsc := by
      intro h
      have := congrArg BitVec.toNat h
      simp [lenEsc, minMatch] at this
      omega
    have e : 4 + (n - 4) % 2 ^ 4 = n := by omega
    unfold takeLength
    rw [if_neg hne]
    simp only [minMatch, BitVec.toNat_ofNat, List.nil_append, e]
  · have hv : BitVec.ofNat 8 ((n - 19) % 255) ≠ chainCont := by
      intro h
      have := congrArg BitVec.toNat h
      simp [chainCont] at this
      omega
    simp only [takeLength, if_true, List.append_assoc, List.cons_append, List.nil_append]
    rw [takeChain_spelled _ _ _ hv]
    simp [minMatch, lenEsc]
    omega

theorem takeCount_eq_ok {hi : Nibble} {rest run : List Byte} {n : Nat} (h : takeCount hi rest = .ok (n, run)) :
    hi = (encodeCount n).1 ∧ rest = (encodeCount n).2 ++ run ∧ n ≤ 270 := by
  unfold takeCount at h
  split at h
  · subst_vars
    split at h <;> simp only [Except.ok.injEq, Prod.mk.injEq, reduceCtorEq] at h
    obtain ⟨rfl, rfl⟩ := h
    rename_i e _
    have := e.isLt
    have hn : ¬ 15 + e.toNat ≤ 14 := by omega
    simp [encodeCount, litEsc, hn]
    omega
  · simp only [Except.ok.injEq, Prod.mk.injEq] at h
    obtain ⟨rfl, rfl⟩ := h
    have hn : hi.toNat ≤ 14 := (nibble_cases hi).resolve_left ‹_›
    simp [encodeCount, hn]
    omega

theorem takeChain_eq_ok {len n : Nat} {rest run : List Byte} (h : takeChain len rest = .ok (n, run)) :
    ∃ k v, v ≠ chainCont ∧ n = len + 255 * k + v.toNat ∧ rest = List.replicate k chainCont ++ v :: run := by
  induction rest generalizing len with
  | nil => simp [takeChain] at h
  | cons v rest ih =>
    simp only [takeChain] at h
    split at h
    · subst_vars
      obtain ⟨k, w, hw, rfl, rfl⟩ := ih h
      refine ⟨k + 1, w, hw, ?_, by simp [List.replicate_succ]⟩
      simp [chainCont]
      omega
    · simp only [Except.ok.injEq, Prod.mk.injEq] at h
      obtain ⟨rfl, rfl⟩ := h
      exact ⟨0, v, ‹_›, by simp, rfl⟩

theorem takeLength_eq_ok {lo : Nibble} {rest run : List Byte} {n : Nat} (h : takeLength lo rest = .ok (n, run)) :
    lo = (encodeLength n).1 ∧ rest = (encodeLength n).2 ++ run ∧ 4 ≤ n := by
  unfold takeLength at h
  split at h
  · subst_vars
    obtain ⟨k, v, hv, rfl, rfl⟩ := takeChain_eq_ok h
    have := v.isLt
    have hv : v.toNat ≠ 255 := fun h => hv (BitVec.eq_of_toNat_eq h)
    have e : minMatch + lenEsc.toNat + 255 * k + v.toNat = 19 + 255 * k + v.toNat := rfl
    have h1 : ¬ 19 + 255 * k + v.toNat ≤ 18 := by omega
    have h2 : (19 + 255 * k + v.toNat - 19) / 255 = k := by omega
    have h3 : BitVec.ofNat 8 ((19 + 255 * k + v.toNat - 19) % 255) = v := by
      apply BitVec.eq_of_toNat_eq
      simp only [BitVec.toNat_ofNat]
      omega
    rw [e]
    simp only [encodeLength, if_neg h1, h2, h3]
    refine ⟨trivial, by simp, by omega⟩
  · simp only [Except.ok.injEq, Prod.mk.injEq] at h
    obtain ⟨rfl, rfl⟩ := h
    have hn : lo.toNat ≤ 14 := (nibble_cases lo).resolve_left ‹_›
    have h1 : 4 + lo.toNat ≤ 18 := by omega
    simp [encodeLength, minMatch, h1]

/-- Taking a count or a length leaves no more bytes than there were. -/
theorem takeCount_length_le {hi : Nibble} {rest run : List Byte} {n : Nat} (h : takeCount hi rest = .ok (n, run)) :
    run.length ≤ rest.length := by
  have := congrArg List.length (takeCount_eq_ok h).2.1
  simp only [List.length_append] at this
  omega

theorem takeLength_length_le {lo : Nibble} {rest run : List Byte} {n : Nat} (h : takeLength lo rest = .ok (n, run)) :
    run.length ≤ rest.length := by
  have := congrArg List.length (takeLength_eq_ok h).2.1
  simp only [List.length_append] at this
  omega

end Sys2Proof
end

