-- ==== Sys2Proof/Laws/Memory.lean ====
section
/-! SUPPORT. The laws of a byte memory: a read after a write, the canonical form, placed bytes, slices and lists of
writes. -/

namespace Sys2Proof.Machine

@[simp] theorem Memory.read_nil (a : Nat) : Memory.read [] a = none := rfl

theorem Memory.read_cons (k : Nat) (v : Byte) (m : Memory) (a : Nat) :
    Memory.read ((k, v) :: m) a = if a = k then some v else m.read a := rfl

theorem Memory.read_write (m : Memory) (a : Nat) (b : Byte) (c : Nat) :
    (m.write a b).read c = if c = a then some b else m.read c := by
  induction m with
  | nil => rfl
  | cons p m ih =>
    obtain ⟨k, v⟩ := p
    simp only [Memory.write]
    split
    · rfl
    · split
      · subst_vars; simp only [Memory.read_cons]; split <;> rfl
      · simp only [Memory.read_cons, ih]
        split <;> split <;> simp_all

@[simp] theorem Memory.read_write_same (m : Memory) (a : Nat) (b : Byte) :
    (m.write a b).read a = some b := by simp [Memory.read_write]

theorem Memory.read_write_other {m : Memory} {a c : Nat} {b : Byte} (h : c ≠ a) :
    (m.write a b).read c = m.read c := by simp [Memory.read_write, h]

theorem Memory.mem_write {m : Memory} {a : Nat} {b : Byte} {p : Host.Cell} (h : p ∈ m.write a b) :
    p = (a, b) ∨ p ∈ m := by
  induction m with
  | nil => simpa [Memory.write] using h
  | cons q m ih =>
    obtain ⟨k, v⟩ := q
    simp only [Memory.write] at h
    split at h
    · simpa using h
    · split at h
      · simp only [List.mem_cons] at h ⊢; tauto
      · simp only [List.mem_cons] at h ⊢
        rcases h with h | h
        · tauto
        · have := ih h; tauto

/-- Writing a byte keeps the canonical form. -/
theorem Memory.write_wf {m : Memory} (a : Nat) (b : Byte) (h : m.wf) : (m.write a b).wf := by
  induction m with
  | nil => exact List.pairwise_singleton _ _
  | cons p m ih =>
    obtain ⟨k, v⟩ := p
    obtain ⟨hk, hm⟩ := List.pairwise_cons.mp h
    simp only [Memory.write]
    split
    · rename_i hlt
      refine List.pairwise_cons.mpr ⟨?_, h⟩
      intro q hq
      rcases List.mem_cons.mp hq with rfl | hq
      · exact hlt
      · exact Nat.lt_trans hlt (hk q hq)
    · split
      · subst_vars; exact List.pairwise_cons.mpr ⟨hk, hm⟩
      · refine List.pairwise_cons.mpr ⟨?_, ih hm⟩
        intro q hq
        rcases Memory.mem_write hq with rfl | hq
        · show k < a; omega
        · exact hk q hq

theorem Memory.read_place (a : Nat) (bs : List Byte) (c : Nat) :
    (Memory.place a bs).read c = if a ≤ c then bs[c - a]? else none := by
  induction bs generalizing a with
  | nil => simp [Memory.place]
  | cons b bs ih =>
    simp only [Memory.place, Memory.read_cons, ih]
    by_cases h : c = a
    · simp [h]
    · by_cases h' : a ≤ c
      · have h1 : a + 1 ≤ c := by omega
        have h2 : c - a = (c - (a + 1)) + 1 := by omega
        simp [h, h', h1, h2]
      · have h1 : ¬ a + 1 ≤ c := by omega
        simp [h, h', h1]

theorem Memory.mem_place {a : Nat} {bs : List Byte} {p : Host.Cell} (h : p ∈ Memory.place a bs) : a ≤ p.1 := by
  induction bs generalizing a with
  | nil => simp [Memory.place] at h
  | cons b bs ih =>
    rcases List.mem_cons.mp h with rfl | h
    · exact Nat.le_refl _
    · have := ih h; omega

/-- Placed bytes are in canonical form. -/
theorem Memory.place_wf (a : Nat) (bs : List Byte) : (Memory.place a bs).wf := by
  induction bs generalizing a with
  | nil => exact List.Pairwise.nil
  | cons b bs ih =>
    refine List.pairwise_cons.mpr ⟨fun p hp => ?_, ih (a + 1)⟩
    have := Memory.mem_place hp
    show a < p.1
    omega

/-- A slice is the list of the bytes read. -/
theorem Memory.slice_eq_some {m : Memory} {a n : Nat} {bs : List Byte} :
    m.slice a n = some bs ↔ bs.length = n ∧ ∀ i, i < n → m.read (a + i) = bs[i]? := by
  induction n generalizing a bs with
  | zero =>
    simp only [Memory.slice, Option.some.injEq]
    constructor
    · rintro rfl; simp
    · rintro ⟨h, -⟩; exact (List.length_eq_zero_iff.mp h).symm
  | succ n ih =>
    simp only [Memory.slice]
    constructor
    · intro h
      split at h
      · rename_i b cs hb hcs
        obtain ⟨hl, hr⟩ := ih.mp hcs
        simp only [Option.some.injEq] at h
        subst h
        refine ⟨by simp [hl], fun i hi => ?_⟩
        cases i with
        | zero => simpa using hb
        | succ i =>
          have := hr i (by omega)
          simpa [Nat.add_assoc, Nat.add_comm 1 i] using this
      · simp at h
    · rintro ⟨hl, hr⟩
      cases bs with
      | nil => simp at hl
      | cons b cs =>
        have hb : m.read a = some b := by simpa using hr 0 (by omega)
        have hcs : m.slice (a + 1) n = some cs := by
          refine ih.mpr ⟨by simpa using hl, fun i hi => ?_⟩
          have := hr (i + 1) (by omega)
          simpa [Nat.add_assoc, Nat.add_comm 1 i] using this
        simp [hb, hcs]

theorem Memory.slice_isSome {m : Memory} {a n : Nat} :
    (m.slice a n).isSome ↔ ∀ i, i < n → (m.read (a + i)).isSome := by
  induction n generalizing a with
  | zero => simp [Memory.slice]
  | succ n ih =>
    simp only [Memory.slice]
    constructor
    · intro h i hi
      split at h
      · rename_i b bs hb hbs
        cases i with
        | zero => simp [hb]
        | succ i =>
          have := (ih (a := a + 1)).mp (by simp [hbs]) i (by omega)
          simpa [Nat.add_assoc, Nat.add_comm 1 i] using this
      · simp at h
    · intro h
      have h0 : (m.read a).isSome := by simpa using h 0 (by omega)
      have h1 : (m.slice (a + 1) n).isSome := by
        refine ih.mpr fun i hi => ?_
        have := h (i + 1) (by omega)
        simpa [Nat.add_assoc, Nat.add_comm 1 i] using this
      obtain ⟨b, hb⟩ := Option.isSome_iff_exists.mp h0
      obtain ⟨bs, hbs⟩ := Option.isSome_iff_exists.mp h1
      simp [hb, hbs]

/-- Reading placed bytes back whole. -/
theorem Memory.slice_place (bs : List Byte) (a n : Nat) (h : a + n ≤ bs.length) :
    (Memory.place 0 bs).slice a n = some ((bs.drop a).take n) := by
  refine Memory.slice_eq_some.mpr ⟨by simp; omega, fun i hi => ?_⟩
  simp [Memory.read_place, hi]

/-- A write at the end of a slice lengthens it by the byte written. -/
theorem Memory.slice_write_end {m : Memory} {n : Nat} {bs : List Byte} (b : Byte)
    (h : m.slice 0 n = some bs) : (m.write n b).slice 0 (n + 1) = some (bs ++ [b]) := by
  obtain ⟨hl, hr⟩ := Memory.slice_eq_some.mp h
  refine Memory.slice_eq_some.mpr ⟨by simp [hl], fun i hi => ?_⟩
  rw [Nat.zero_add, Memory.read_write]
  by_cases hin : i = n
  · subst hin; simp [← hl]
  · have hlt : i < n := by omega
    have := hr i hlt
    rw [if_neg hin, List.getElem?_append_left (by omega)]
    simpa using this

theorem Memory.writeList_append (m : Memory) (a : Nat) (bs cs : List Byte) :
    m.writeList a (bs ++ cs) = (m.writeList a bs).writeList (a + bs.length) cs := by
  induction bs generalizing m a with
  | nil => rfl
  | cons b bs ih => simp [Memory.writeList, ih, Nat.add_assoc, Nat.add_comm 1]

/-- A list of writes changes exactly the addresses it covers. -/
theorem Memory.read_writeList (m : Memory) (a : Nat) (bs : List Byte) (c : Nat) :
    (m.writeList a bs).read c = if a ≤ c ∧ c < a + bs.length then bs[c - a]? else m.read c := by
  induction bs generalizing m a with
  | nil => simp [Memory.writeList]
  | cons b bs ih =>
    simp only [Memory.writeList, ih, Memory.read_write, List.length_cons]
    by_cases h1 : c = a
    · subst h1; simp
    · by_cases h2 : a + 1 ≤ c ∧ c < a + 1 + bs.length
      · have h3 : a ≤ c ∧ c < a + (bs.length + 1) := by omega
        have h4 : c - a = (c - (a + 1)) + 1 := by omega
        rw [if_pos h2, if_pos h3, h4, List.getElem?_cons_succ]
      · have h3 : ¬ (a ≤ c ∧ c < a + (bs.length + 1)) := by omega
        rw [if_neg h2, if_neg h3, if_neg h1]

theorem Memory.writeList_wf {m : Memory} (a : Nat) (bs : List Byte) (h : m.wf) : (m.writeList a bs).wf := by
  induction bs generalizing m a with
  | nil => exact h
  | cons b bs ih => exact ih _ (Memory.write_wf a b h)

theorem Memory.slice_writeList_end {m : Memory} {n : Nat} {bs : List Byte} (cs : List Byte)
    (h : m.slice 0 n = some bs) : (m.writeList n cs).slice 0 (n + cs.length) = some (bs ++ cs) := by
  induction cs generalizing m n bs with
  | nil => simpa [Memory.writeList] using h
  | cons c cs ih =>
    have := ih (Memory.slice_write_end c h)
    simpa [Memory.writeList, Nat.add_assoc, Nat.add_comm 1] using this

end Sys2Proof.Machine
end

