-- ==== Sys2Proof/Laws/State.lean ====
section
/-! SUPPORT. One lemma per field for each of the updates that steps and host commands are made of. -/

namespace Sys2Proof.Machine

variable (s : State)

@[simp] theorem State.raise_src (k : ErrCode) : (s.raise k).src = s.src := rfl
@[simp] theorem State.raise_srcLen (k : ErrCode) : (s.raise k).srcLen = s.srcLen := rfl
@[simp] theorem State.raise_maxOut (k : ErrCode) : (s.raise k).maxOut = s.maxOut := rfl
@[simp] theorem State.raise_status (k : ErrCode) : (s.raise k).status = .err := rfl
@[simp] theorem State.raise_errCode (k : ErrCode) : (s.raise k).errCode = k := rfl
@[simp] theorem State.raise_st (k : ErrCode) : (s.raise k).st = .err := rfl
@[simp] theorem State.raise_magic (k : ErrCode) : (s.raise k).magic = s.magic := rfl
@[simp] theorem State.raise_csize (k : ErrCode) : (s.raise k).csize = s.csize := rfl
@[simp] theorem State.raise_sizeHint (k : ErrCode) : (s.raise k).sizeHint = s.sizeHint := rfl
@[simp] theorem State.raise_reserved (k : ErrCode) : (s.raise k).reserved = s.reserved := rfl
@[simp] theorem State.raise_cur (k : ErrCode) : (s.raise k).cur = s.cur := rfl
@[simp] theorem State.raise_lc (k : ErrCode) : (s.raise k).lc = s.lc := rfl
@[simp] theorem State.raise_lb (k : ErrCode) : (s.raise k).lb = s.lb := rfl
@[simp] theorem State.raise_litRem (k : ErrCode) : (s.raise k).litRem = s.litRem := rfl
@[simp] theorem State.raise_dist (k : ErrCode) : (s.raise k).dist = s.dist := rfl
@[simp] theorem State.raise_brLen (k : ErrCode) : (s.raise k).brLen = s.brLen := rfl
@[simp] theorem State.raise_copyRem (k : ErrCode) : (s.raise k).copyRem = s.copyRem := rfl
@[simp] theorem State.raise_out (k : ErrCode) : (s.raise k).out = s.out := rfl
@[simp] theorem State.raise_outLen (k : ErrCode) : (s.raise k).outLen = 0 := rfl

@[simp] theorem State.finish_src : (s.finish).src = s.src := rfl
@[simp] theorem State.finish_srcLen : (s.finish).srcLen = s.srcLen := rfl
@[simp] theorem State.finish_maxOut : (s.finish).maxOut = s.maxOut := rfl
@[simp] theorem State.finish_status : (s.finish).status = .doneOk := rfl
@[simp] theorem State.finish_errCode : (s.finish).errCode = s.errCode := rfl
@[simp] theorem State.finish_st : (s.finish).st = .done := rfl
@[simp] theorem State.finish_magic : (s.finish).magic = s.magic := rfl
@[simp] theorem State.finish_csize : (s.finish).csize = s.csize := rfl
@[simp] theorem State.finish_sizeHint : (s.finish).sizeHint = s.sizeHint := rfl
@[simp] theorem State.finish_reserved : (s.finish).reserved = s.reserved := rfl
@[simp] theorem State.finish_cur : (s.finish).cur = s.cur := rfl
@[simp] theorem State.finish_lc : (s.finish).lc = s.lc := rfl
@[simp] theorem State.finish_lb : (s.finish).lb = s.lb := rfl
@[simp] theorem State.finish_litRem : (s.finish).litRem = s.litRem := rfl
@[simp] theorem State.finish_dist : (s.finish).dist = s.dist := rfl
@[simp] theorem State.finish_brLen : (s.finish).brLen = s.brLen := rfl
@[simp] theorem State.finish_copyRem : (s.finish).copyRem = s.copyRem := rfl
@[simp] theorem State.finish_out : (s.finish).out = s.out := rfl
@[simp] theorem State.finish_outLen : (s.finish).outLen = s.outLen := rfl

@[simp] theorem State.start_src : (s.start).src = s.src := rfl
@[simp] theorem State.start_srcLen : (s.start).srcLen = s.srcLen := rfl
@[simp] theorem State.start_maxOut : (s.start).maxOut = s.maxOut := rfl
@[simp] theorem State.start_status : (s.start).status = .busy := rfl
@[simp] theorem State.start_errCode : (s.start).errCode = .none := rfl
@[simp] theorem State.start_st : (s.start).st = .magic := rfl
@[simp] theorem State.start_magic : (s.start).magic = s.magic := rfl
@[simp] theorem State.start_csize : (s.start).csize = s.csize := rfl
@[simp] theorem State.start_sizeHint : (s.start).sizeHint = s.sizeHint := rfl
@[simp] theorem State.start_reserved : (s.start).reserved = s.reserved := rfl
@[simp] theorem State.start_cur : (s.start).cur = 0 := rfl
@[simp] theorem State.start_lc : (s.start).lc = s.lc := rfl
@[simp] theorem State.start_lb : (s.start).lb = s.lb := rfl
@[simp] theorem State.start_litRem : (s.start).litRem = s.litRem := rfl
@[simp] theorem State.start_dist : (s.start).dist = s.dist := rfl
@[simp] theorem State.start_brLen : (s.start).brLen = s.brLen := rfl
@[simp] theorem State.start_copyRem : (s.start).copyRem = s.copyRem := rfl
@[simp] theorem State.start_out : (s.start).out = s.out := rfl
@[simp] theorem State.start_outLen : (s.start).outLen = 0 := rfl

@[simp] theorem State.load_src (bs : List Byte) : (s.load bs).src = Memory.place 0 bs := rfl
@[simp] theorem State.load_srcLen (bs : List Byte) : (s.load bs).srcLen = bs.length := rfl
@[simp] theorem State.load_maxOut (bs : List Byte) : (s.load bs).maxOut = s.maxOut := rfl
@[simp] theorem State.load_status (bs : List Byte) : (s.load bs).status = s.status := rfl
@[simp] theorem State.load_errCode (bs : List Byte) : (s.load bs).errCode = s.errCode := rfl
@[simp] theorem State.load_st (bs : List Byte) : (s.load bs).st = s.st := rfl
@[simp] theorem State.load_magic (bs : List Byte) : (s.load bs).magic = s.magic := rfl
@[simp] theorem State.load_csize (bs : List Byte) : (s.load bs).csize = s.csize := rfl
@[simp] theorem State.load_sizeHint (bs : List Byte) : (s.load bs).sizeHint = s.sizeHint := rfl
@[simp] theorem State.load_reserved (bs : List Byte) : (s.load bs).reserved = s.reserved := rfl
@[simp] theorem State.load_cur (bs : List Byte) : (s.load bs).cur = s.cur := rfl
@[simp] theorem State.load_lc (bs : List Byte) : (s.load bs).lc = s.lc := rfl
@[simp] theorem State.load_lb (bs : List Byte) : (s.load bs).lb = s.lb := rfl
@[simp] theorem State.load_litRem (bs : List Byte) : (s.load bs).litRem = s.litRem := rfl
@[simp] theorem State.load_dist (bs : List Byte) : (s.load bs).dist = s.dist := rfl
@[simp] theorem State.load_brLen (bs : List Byte) : (s.load bs).brLen = s.brLen := rfl
@[simp] theorem State.load_copyRem (bs : List Byte) : (s.load bs).copyRem = s.copyRem := rfl
@[simp] theorem State.load_out (bs : List Byte) : (s.load bs).out = s.out := rfl
@[simp] theorem State.load_outLen (bs : List Byte) : (s.load bs).outLen = s.outLen := rfl

@[simp] theorem State.push_src (v : Byte) : (s.push v).src = s.src := rfl
@[simp] theorem State.push_srcLen (v : Byte) : (s.push v).srcLen = s.srcLen := rfl
@[simp] theorem State.push_maxOut (v : Byte) : (s.push v).maxOut = s.maxOut := rfl
@[simp] theorem State.push_status (v : Byte) : (s.push v).status = s.status := rfl
@[simp] theorem State.push_errCode (v : Byte) : (s.push v).errCode = s.errCode := rfl
@[simp] theorem State.push_st (v : Byte) : (s.push v).st = s.st := rfl
@[simp] theorem State.push_magic (v : Byte) : (s.push v).magic = s.magic := rfl
@[simp] theorem State.push_csize (v : Byte) : (s.push v).csize = s.csize := rfl
@[simp] theorem State.push_sizeHint (v : Byte) : (s.push v).sizeHint = s.sizeHint := rfl
@[simp] theorem State.push_reserved (v : Byte) : (s.push v).reserved = s.reserved := rfl
@[simp] theorem State.push_cur (v : Byte) : (s.push v).cur = s.cur := rfl
@[simp] theorem State.push_lc (v : Byte) : (s.push v).lc = s.lc := rfl
@[simp] theorem State.push_lb (v : Byte) : (s.push v).lb = s.lb := rfl
@[simp] theorem State.push_litRem (v : Byte) : (s.push v).litRem = s.litRem := rfl
@[simp] theorem State.push_dist (v : Byte) : (s.push v).dist = s.dist := rfl
@[simp] theorem State.push_brLen (v : Byte) : (s.push v).brLen = s.brLen := rfl
@[simp] theorem State.push_copyRem (v : Byte) : (s.push v).copyRem = s.copyRem := rfl
@[simp] theorem State.push_out (v : Byte) : (s.push v).out = s.out.write s.outLen v := rfl
@[simp] theorem State.push_outLen (v : Byte) : (s.push v).outLen = s.outLen + 1 := rfl

end Sys2Proof.Machine
end

