-- ==== Sys2Proof/Laws/Rules.lean ====
section
/-! SUPPORT. What each operand read can answer, and the step of each control state as its rule: `step` is unfolded
here once, and the classification of a token by `fetch` is shown not to matter to what the step does. -/

namespace Sys2Proof.Machine

/-! ### Operand reads -/

theorem srcByte_eq_ok {a : Nat} {s : State} {b : Byte} :
    srcByte a s = .ok b ↔ a < s.srcLen ∧ s.src.read a = some b := by
  simp only [srcByte]
  split
  · split <;> simp_all
  · simp_all

theorem payloadByte_eq_ok {i : Nat} {s : State} {b : Byte} :
    payloadByte i s = .ok b ↔ i < s.csize.toNat ∧ hdrBytes + i < s.srcLen ∧ s.src.read (hdrBytes + i) = some b := by
  simp only [payloadByte]
  split <;> simp_all [srcByte_eq_ok]

theorem srcWord_eq_ok {a : Nat} {s : State} {w : Word} :
    srcWord a s = .ok w ↔ ∃ b0 b1 b2 b3, srcByte a s = .ok b0 ∧ srcByte (a + 1) s = .ok b1 ∧
      srcByte (a + 2) s = .ok b2 ∧ srcByte (a + 3) s = .ok b3 ∧ w = le32 b0 b1 b2 b3 := by
  simp only [srcWord]
  cases srcByte a s <;> cases srcByte (a + 1) s <;> cases srcByte (a + 2) s <;> cases srcByte (a + 3) s <;>
    simp [eq_comm]

theorem distanceField_eq_ok {s : State} {d : Half} :
    distanceField s = .ok d ↔ ∃ d0 d1, payloadByte s.cur s = .ok d0 ∧ payloadByte (s.cur + 1) s = .ok d1 ∧
      d = le16 d0 d1 := by
  simp only [distanceField]
  cases payloadByte s.cur s <;> cases payloadByte (s.cur + 1) s <;> simp [eq_comm]

theorem readBack_eq_ok {d : Nat} {s : State} {b : Byte} :
    readBack d s = .ok b ↔ 1 ≤ d ∧ d ≤ s.outLen ∧ s.out.read (s.outLen - d) = some b := by
  simp only [readBack]
  split
  · split <;> simp_all
  · simp_all

@[simp] theorem exhausted_iff {s : State} : s.exhausted = true ↔ s.cur = s.csize.toNat := by
  simp [State.exhausted]

@[simp] theorem exhausted_eq_false {s : State} : s.exhausted = false ↔ s.cur ≠ s.csize.toNat := by
  simp [State.exhausted]

theorem limitHit_iff {s : State} : s.limitHit = true ↔ ∃ m, s.maxOut = some m ∧ m ≤ s.outLen := by
  cases h : s.maxOut <;> simp [State.limitHit, h]

theorem limitHit_eq_false {s : State} : s.limitHit = false ↔ s.hasRoom 1 := by
  simp only [State.limitHit, State.hasRoom]
  cases h : s.maxOut <;> simp

theorem badDistance_iff {s : State} : s.badDistance = true ↔ s.dist.toNat = 0 ∨ s.outLen < s.dist.toNat := by
  simp [State.badDistance, ← BitVec.toNat_inj]

/-- The three ends of `S_DIST` once the distance has been read (R130). -/
theorem setDistance_bad {s : State} {d : Half} (h : d.toNat = 0 ∨ s.outLen < d.toNat) :
    setDistance d s = State.raise .invalidDistance { s with dist := d, cur := s.cur + 2 } := by
  unfold setDistance
  exact if_pos (badDistance_iff.mpr h)

theorem setDistance_chain {s : State} {d : Half} (h1 : 1 ≤ d.toNat) (h2 : d.toNat ≤ s.outLen) (hx : s.lb = lenEsc) :
    setDistance d s =
      { s with dist := d, cur := s.cur + 2, brLen := minMatch + s.lb.toNat, st := .lenExt } := by
  unfold setDistance
  rw [if_neg (fun h => by have := badDistance_iff.mp h; dsimp only at this; omega)]
  exact if_pos hx

theorem setDistance_copy {s : State} {d : Half} (h1 : 1 ≤ d.toNat) (h2 : d.toNat ≤ s.outLen) (hx : s.lb ≠ lenEsc) :
    setDistance d s =
      { s with dist := d, cur := s.cur + 2, brLen := minMatch + s.lb.toNat, copyRem := minMatch + s.lb.toNat,
               st := .copy } := by
  unfold setDistance
  rw [if_neg (fun h => by have := badDistance_iff.mp h; dsimp only at this; omega)]
  exact if_neg hx

/-! ### The step of each control state -/

theorem exec_tokenForm_ctrl {s : State} (h : s.st = .ctrl) (hi lo : Nibble) :
    exec (tokenForm hi lo) s = .next (ctrlStep hi lo s) := by
  simp only [tokenForm]
  split <;> split <;> simp_all [exec, execTokXX, execTokXS, execTokSX, execTokSS]

theorem exec_decodeControl {s : State} (h : s.st = .ctrl) (c : Byte) (next : Option Byte) (left : Nat) :
    exec (decodeControl c next left) s = .next (ctrlStep (hiNibble c) (loNibble c) s) := by
  simp only [decodeControl]
  split
  · simp [exec, execFin, h]
  · exact exec_tokenForm_ctrl h _ _

theorem exec_tokenForm_lit {s : State} (h : s.st = .lit) (hi lo : Nibble) :
    exec (tokenForm hi lo) s = litStep s := by
  simp only [tokenForm]
  split <;> split <;> simp_all [exec, execTokXX, execTokXS, execTokSX, execTokSS]

theorem exec_tokenForm_dist {s : State} (h : s.st = .dist) (hi lo : Nibble) :
    exec (tokenForm hi lo) s = distStep s := by
  simp only [tokenForm]
  split <;> split <;> simp_all [exec, execTokXX, execTokXS, execTokSX, execTokSS]

theorem exec_tokenForm_copy {s : State} (h : s.st = .copy) (hi lo : Nibble) :
    exec (tokenForm hi lo) s = copyStep s := by
  simp only [tokenForm]
  split <;> split <;> simp_all [exec, execTokXX, execTokXS, execTokSX, execTokSS]

theorem exec_decodeChain {s : State} (h : s.st = .lenExt) (v : Byte) :
    exec (decodeChain v) s = .next (chainStep v s) := by
  simp only [decodeChain]
  split
  · subst_vars; simp [exec, execChainMore, h]
  · simp [exec, execChainLast, h]

theorem step_resting {s : State} (h : s.st = .idle ∨ s.st = .done ∨ s.st = .err) : step s = .next s := by
  rcases h with h | h | h <;> simp [step, runFetched, fetch, h]

/-- `S_MAGIC`: where the first word can be read the step is R101. -/
theorem step_magic {s : State} (h : s.st = .magic) {w : Word} (hw : srcWord 0 s = .ok w) :
    step s = .next (magicStep w s) := by
  simp only [step, runFetched, fetch, h, fetchMagic, hw]
  by_cases hl : s.srcLen < magicBytes
  · simp [hl, magicStep]
  · simp only [hl, if_false]
    by_cases hm : w = magicWord
    · subst hm
      simp only [ne_eq, not_true, if_false]
      cases hh : headerAt s with
      | error f => simp
      | ok i =>
        simp only [headerAt] at hh
        split at hh <;> simp_all
        subst hh
        simp [exec, execHdr, h]
    · simp [hm]

theorem step_magic_short {s : State} (h : s.st = .magic) (hl : s.srcLen < magicBytes) :
    step s = .next (s.raise .truncatedInput) := by
  simp [step, runFetched, fetch, h, fetchMagic, hl]

theorem step_hdr_short {s : State} (h : s.st = .hdr) (hl : s.srcLen < hdrBytes) :
    step s = .next (s.raise .truncatedInput) := by
  simp [step, runFetched, fetch, h, fetchHdr, hl]

/-- `S_HDR`: where the three words can be read the step is R102. -/
theorem step_hdr {s : State} (h : s.st = .hdr) {c n r : Word} (hc : srcWord 4 s = .ok c)
    (hn : srcWord 8 s = .ok n) (hr : srcWord 12 s = .ok r) : step s = .next (headerStep c n r s) := by
  simp only [step, runFetched, fetch, h, fetchHdr, headerAt, hc, hn, hr]
  by_cases hl : s.srcLen < hdrBytes
  · simp [hl, headerStep]
  · simp [hl, exec, execHdr, h]

theorem step_ctrl_end {s : State} (h : s.st = .ctrl) (he : s.cur = s.csize.toNat) : step s = .next s.finish := by
  simp [step, runFetched, fetch, h, fetchControl, he]

/-- `S_CTRL`: where the control byte can be read the step is R110. -/
theorem step_ctrl {s : State} (h : s.st = .ctrl) {c : Byte} (hc : payloadByte s.cur s = .ok c) :
    step s = .next (ctrlStep (hiNibble c) (loNibble c) s) := by
  have hlt := (payloadByte_eq_ok.mp hc).1
  have hne : s.cur ≠ s.csize.toNat := by omega
  simp [step, runFetched, fetch, h, fetchControl, hne, hc, exec_decodeControl h]

/-- `S_LITEXT` is R112. -/
theorem step_litExt {s : State} (h : s.st = .litExt) : step s = litExtFetch s := by
  simp only [step, runFetched, fetch, h, fetchLitExt, litExtFetch]
  by_cases he : s.exhausted = true
  · simp [he]
  · cases hb : payloadByte s.cur s <;> simp [he, exec, execLext, h]

/-- `S_LIT` is R120, whichever form the token in progress has. -/
theorem step_lit {s : State} (h : s.st = .lit) : step s = litStep s := by
  simp only [step, runFetched, fetch, h, fetchLit]
  split
  · simp [exec, execFin, h]
  · exact exec_tokenForm_lit h _ _

/-- `S_DIST` is R130. -/
theorem step_dist {s : State} (h : s.st = .dist) : step s = distStep s := by
  simp only [step, runFetched, fetch, h, State.token]
  exact exec_tokenForm_dist h _ _

/-- `S_LENEXT` is R133. -/
theorem step_lenExt {s : State} (h : s.st = .lenExt) : step s = chainFetch s := by
  simp only [step, runFetched, fetch, h, fetchChain, chainFetch]
  by_cases he : s.exhausted = true
  · simp [he]
  · cases hb : payloadByte s.cur s <;> simp [he, exec_decodeChain h]

/-- `S_COPY` is R136. -/
theorem step_copy {s : State} (h : s.st = .copy) : step s = copyStep s := by
  simp only [step, runFetched, fetch, h, State.token]
  exact exec_tokenForm_copy h _ _

end Sys2Proof.Machine
end

