-- ==== Sys2Proof/Laws/Payload.lean ====
section
/-! SUPPORT. Bytes at the payload cursor, taken apart; the bytes a copy appends, one by one; the source as the host
loads it. -/

namespace Sys2Proof.Machine

theorem State.atPayload_head {s : State} {b : Byte} {bs : List Byte} (h : s.atPayload (b :: bs)) :
    payloadByte s.cur s = .ok b := by
  obtain ⟨h1, h2, h3⟩ := h
  obtain ⟨-, hr⟩ := Memory.slice_eq_some.mp h3
  simp only [List.length_cons] at h1
  exact payloadByte_eq_ok.mpr ⟨by omega, by omega, by simpa using hr 0 (by simp)⟩

/-- Bytes stand one after the other exactly where the first stand at the cursor and the others behind them. -/
theorem State.atPayload_append {s : State} {bs cs : List Byte} :
    s.atPayload (bs ++ cs) ↔ s.atPayload bs ∧ State.atPayload { s with cur := s.cur + bs.length } cs := by
  constructor
  · rintro ⟨h1, h2, h3⟩
    obtain ⟨-, hr⟩ := Memory.slice_eq_some.mp h3
    simp only [List.length_append] at h1 hr
    refine ⟨⟨by omega, h2, Memory.slice_eq_some.mpr ⟨rfl, fun i hi => ?_⟩⟩,
      ⟨by dsimp only; omega, h2, Memory.slice_eq_some.mpr ⟨rfl, fun i hi => ?_⟩⟩⟩
    · rw [hr i (by omega), List.getElem?_append_left (by omega)]
    · have := hr (bs.length + i) (by omega)
      rw [List.getElem?_append_right (by omega)] at this
      simpa [Nat.add_assoc] using this
  · rintro ⟨⟨-, -, h3⟩, h1, h2, h4⟩
    obtain ⟨-, hr⟩ := Memory.slice_eq_some.mp h3
    obtain ⟨-, hq⟩ := Memory.slice_eq_some.mp h4
    dsimp only at h1 h2 hq
    refine ⟨by simp only [List.length_append]; omega, h2, Memory.slice_eq_some.mpr ⟨rfl, fun i hi => ?_⟩⟩
    simp only [List.length_append] at hi
    by_cases hb : i < bs.length
    · rw [List.getElem?_append_left hb]; exact hr i hb
    · rw [List.getElem?_append_right (by omega), ← hq (i - bs.length) (by omega)]
      congr 1
      omega

@[simp] theorem length_copied (d n : Nat) (o : List Byte) : (copied d n o).length = n := by simp [copied]

@[simp] theorem copied_zero (d : Nat) (o : List Byte) : copied d 0 o = [] := rfl

/-- The first byte a copy appends, and the rest as a copy from the longer output (R136, R137). -/
theorem copied_succ {d n : Nat} {o : List Byte} (h1 : 1 ≤ d) (h2 : d ≤ o.length) :
    copied d (n + 1) o = o.getD (o.length - d) 0 :: copied d n (o ++ [o.getD (o.length - d) 0]) := by
  simp only [copied, List.range_succ_eq_map, List.map_cons, List.map_map]
  congr 1
  apply List.map_congr_left
  intro i _
  simp only [Function.comp, List.length_append, List.length_singleton, Nat.succ_eq_add_one]
  have hd : i % d < d := Nat.mod_lt _ h1
  by_cases hi : i % d + 1 < d
  · have e1 : (i + 1) % d = i % d + 1 := by
      rw [Nat.add_mod, Nat.mod_eq_of_lt (a := 1) (by omega), Nat.mod_eq_of_lt hi]
    rw [e1, List.getD_append _ _ _ _ (by omega)]
    congr 1
    omega
  · have e0 : i % d = d - 1 := by omega
    have e1 : (i + 1) % d = 0 := by
      have := Nat.div_add_mod i d
      have : i + 1 = d * (i / d + 1) := by rw [Nat.mul_add]; omega
      rw [this]
      exact Nat.mul_mod_right _ _
    rw [e0, e1, List.getD_append_right _ _ _ _ (by omega)]
    have : o.length + 1 - d + (d - 1) - o.length = 0 := by omega
    simp [this]

/-- The byte a copying step reads, in an output that is known as a list. -/
theorem readBack_of_output {s : State} {o : List Byte} {d : Nat} (ho : s.output = some o) (h1 : 1 ≤ d)
    (h2 : d ≤ s.outLen) : readBack d s = .ok (o.getD (o.length - d) 0) := by
  obtain ⟨hl, hr⟩ := Memory.slice_eq_some.mp ho
  refine readBack_eq_ok.mpr ⟨h1, h2, ?_⟩
  have := hr (s.outLen - d) (by omega)
  have hlt : s.outLen - d < o.length := by omega
  rw [Nat.zero_add] at this
  rw [this, hl, List.getD_eq_getElem?_getD]
  simp [hlt]

/-- A word of a loaded source. -/
theorem srcWord_loaded {t : State} {bytes : List Byte} {a : Nat} (h1 : t.src = Memory.place 0 bytes)
    (h2 : t.srcLen = bytes.length) (h : a + 4 ≤ bytes.length) : srcWord a t = .ok (wordAt bytes a) := by
  have k : ∀ i, i < bytes.length → srcByte i t = .ok (bytes.getD i 0) := by
    intro i hi
    refine srcByte_eq_ok.mpr ⟨by omega, ?_⟩
    rw [h1, Memory.read_place]
    simp [hi]
  exact srcWord_eq_ok.mpr ⟨_, _, _, _, k _ (by omega), k _ (by omega), k _ (by omega), k _ (by omega), rfl⟩

end Sys2Proof.Machine
end

