-- ==== Sys2Proof/Laws/PerInstr.lean ====
section
/-! SUPPORT. A family of statements about the instruction as syntax: the length of its own unit (30_encoding.md R71,
R73, R74, R77: sixteen bytes for the header, one byte for every other row). -/

namespace Sys2Proof.Laws.UnitLength

open Sys2Proof

/-- The unit of an instruction is one byte, the header's sixteen. -/
def Statement (i : Instr) : Prop :=
  (encode i).length = if i.site = .container then 16 else 1

theorem hdr (c h r : Word) : Statement (.hdr c h r) := rfl
theorem tokXX : Statement .tokXX := rfl
theorem tokXS (lo : Nibble) : Statement (.tokXS lo) := rfl
theorem tokSX (hi : Nibble) : Statement (.tokSX hi) := rfl
theorem tokSS (hi lo : Nibble) : Statement (.tokSS hi lo) := rfl
theorem fin (hi lo : Nibble) : Statement (.fin hi lo) := rfl
theorem lext (e : Byte) : Statement (.lext e) := rfl
theorem chainMore : Statement .chainMore := rfl
theorem chainLast (v : Byte) : Statement (.chainLast v) := rfl

end Sys2Proof.Laws.UnitLength
end

