-- ==== Sys2Proof/Laws/Transitions.lean ====
section
/-! SUPPORT. The transition table of 44_token_forms_and_laws.md R166 as a relation: one constructor per row, with the
condition of the row and the state it leads to. `step_iff_edge` says that a step is an edge and an edge a step, so a
property of every step is a case analysis over the table. -/

namespace Sys2Proof.Machine

/-- One row of R166 each; `resting` is the idle step of log entry 3. -/
inductive Edge (s : State) : State → Prop where
  | resting (h : s.st = .idle ∨ s.st = .done ∨ s.st = .err) : Edge s s
  | magicShort (h : s.st = .magic) (hl : s.srcLen < 4) : Edge s (s.raise .truncatedInput)
  | magicWrong (h : s.st = .magic) (hl : 4 ≤ s.srcLen) (w : Word) (hw : srcWord 0 s = .ok w) (hm : w ≠ magicWord) :
      Edge s (State.raise .invalidMagic { s with magic := w })
  | magicRight (h : s.st = .magic) (hl : 4 ≤ s.srcLen) (hw : srcWord 0 s = .ok magicWord) :
      Edge s { s with magic := magicWord, st := .hdr }
  | hdrShort (h : s.st = .hdr) (hl : s.srcLen < 16) : Edge s (s.raise .truncatedInput)
  | hdrCut (h : s.st = .hdr) (hl : 16 ≤ s.srcLen) (c n r : Word) (hc : srcWord 4 s = .ok c) (hn : srcWord 8 s = .ok n)
      (hr : srcWord 12 s = .ok r) (hs : s.srcLen - 16 < c.toNat) :
      Edge s (State.raise .truncatedInput { s with csize := c, sizeHint := n, reserved := r })
  | hdrPass (h : s.st = .hdr) (hl : 16 ≤ s.srcLen) (c n r : Word) (hc : srcWord 4 s = .ok c)
      (hn : srcWord 8 s = .ok n) (hr : srcWord 12 s = .ok r) (hs : c.toNat ≤ s.srcLen - 16) :
      Edge s { s with csize := c, sizeHint := n, reserved := r, st := .ctrl }
  | ctrlEnd (h : s.st = .ctrl) (he : s.cur = s.csize.toNat) : Edge s s.finish
  | ctrlExt (h : s.st = .ctrl) (c : Byte) (hc : payloadByte s.cur s = .ok c) (hx : hiNibble c = litEsc) :
      Edge s { s with cur := s.cur + 1, lc := (hiNibble c).toNat, lb := loNibble c, st := .litExt }
  | ctrlLit (h : s.st = .ctrl) (c : Byte) (hc : payloadByte s.cur s = .ok c) (hx : hiNibble c ≠ litEsc) :
      Edge s { s with cur := s.cur + 1, lc := (hiNibble c).toNat, lb := loNibble c, litRem := (hiNibble c).toNat,
                      st := .lit }
  | litExtEnd (h : s.st = .litExt) (he : s.cur = s.csize.toNat) : Edge s (s.raise .truncatedInput)
  | litExtByte (h : s.st = .litExt) (e : Byte) (hb : payloadByte s.cur s = .ok e) :
      Edge s { s with cur := s.cur + 1, lc := litEsc.toNat + e.toNat, litRem := litEsc.toNat + e.toNat, st := .lit }
  | litLong (h : s.st = .lit) (hl : s.left < s.litRem) : Edge s (s.raise .truncatedInput)
  | litLimit (h : s.st = .lit) (hl : s.litRem ≤ s.left) (hp : 0 < s.litRem) (b : Byte)
      (hb : payloadByte s.cur s = .ok b) (hm : s.limitHit = true) : Edge s (s.raise .outputLimit)
  | litByte (h : s.st = .lit) (hl : s.litRem ≤ s.left) (hp : 0 < s.litRem) (b : Byte)
      (hb : payloadByte s.cur s = .ok b) (hm : s.limitHit = false) :
      Edge s { s.push b with cur := s.cur + 1, litRem := s.litRem - 1, st := .lit }
  | litFinish (h : s.st = .lit) (hz : s.litRem = 0) (he : s.cur = s.csize.toNat) : Edge s s.finish
  | litNext (h : s.st = .lit) (hz : s.litRem = 0) (he : s.cur ≠ s.csize.toNat) : Edge s { s with st := .dist }
  | distShort (h : s.st = .dist) (hl : s.left < 2) : Edge s (s.raise .truncatedInput)
  | distBad (h : s.st = .dist) (hl : 2 ≤ s.left) (d : Half) (hd : distanceField s = .ok d)
      (hb : d.toNat = 0 ∨ s.outLen < d.toNat) :
      Edge s (State.raise .invalidDistance { s with dist := d, cur := s.cur + 2 })
  | distChain (h : s.st = .dist) (hl : 2 ≤ s.left) (d : Half) (hd : distanceField s = .ok d) (h1 : 1 ≤ d.toNat)
      (h2 : d.toNat ≤ s.outLen) (hx : s.lb = lenEsc) :
      Edge s { s with dist := d, cur := s.cur + 2, brLen := minMatch + s.lb.toNat, st := .lenExt }
  | distCopy (h : s.st = .dist) (hl : 2 ≤ s.left) (d : Half) (hd : distanceField s = .ok d) (h1 : 1 ≤ d.toNat)
      (h2 : d.toNat ≤ s.outLen) (hx : s.lb ≠ lenEsc) :
      Edge s { s with dist := d, cur := s.cur + 2, brLen := minMatch + s.lb.toNat, copyRem := minMatch + s.lb.toNat,
                      st := .copy }
  | chainEnd (h : s.st = .lenExt) (he : s.cur = s.csize.toNat) : Edge s (s.raise .truncatedInput)
  | chainMore (h : s.st = .lenExt) (hb : payloadByte s.cur s = .ok chainCont) :
      Edge s { s with cur := s.cur + 1, brLen := s.brLen + chainCont.toNat, st := .lenExt }
  | chainLast (h : s.st = .lenExt) (v : Byte) (hb : payloadByte s.cur s = .ok v) (hv : v ≠ chainCont) :
      Edge s { s with cur := s.cur + 1, brLen := s.brLen + v.toNat, copyRem := s.brLen + v.toNat, st := .copy }
  | copyLimit (h : s.st = .copy) (hp : 0 < s.copyRem) (b : Byte) (hb : readBack s.dist.toNat s = .ok b)
      (hm : s.limitHit = true) : Edge s (s.raise .outputLimit)
  | copyByte (h : s.st = .copy) (hp : 0 < s.copyRem) (b : Byte) (hb : readBack s.dist.toNat s = .ok b)
      (hm : s.limitHit = false) : Edge s { s.push b with copyRem := s.copyRem - 1, st := .copy }
  | copyEnd (h : s.st = .copy) (hz : s.copyRem = 0) : Edge s { s with st := .ctrl }

theorem payloadByte_not_exhausted {s : State} {b : Byte} (h : payloadByte s.cur s = .ok b) :
    s.exhausted = false := by
  have := (payloadByte_eq_ok.mp h).1
  simp; omega

theorem magicStep_edge {s : State} (h : s.st = .magic) {w : Word} (hw : srcWord 0 s = .ok w) :
    Edge s (magicStep w s) := by
  unfold magicStep
  by_cases hl : s.srcLen < magicBytes
  · rw [if_pos hl]; exact .magicShort h hl
  · have hl' : 4 ≤ s.srcLen := Nat.le_of_not_lt hl
    rw [if_neg hl]
    by_cases hm : w = magicWord
    · subst hm; simpa using Edge.magicRight h hl' hw
    · simpa [hm] using Edge.magicWrong h hl' w hw hm

theorem headerStep_edge {s : State} (h : s.st = .hdr) {c n r : Word} (hc : srcWord 4 s = .ok c)
    (hn : srcWord 8 s = .ok n) (hr : srcWord 12 s = .ok r) : Edge s (headerStep c n r s) := by
  unfold headerStep
  by_cases hl : s.srcLen < hdrBytes
  · rw [if_pos hl]; exact .hdrShort h hl
  · have hl' : 16 ≤ s.srcLen := Nat.le_of_not_lt hl
    rw [if_neg hl]
    by_cases hs : s.srcLen - hdrBytes < c.toNat
    · simpa [hs] using Edge.hdrCut h hl' c n r hc hn hr hs
    · simpa [hs] using Edge.hdrPass h hl' c n r hc hn hr (Nat.le_of_not_lt hs)

theorem ctrlStep_edge {s : State} (h : s.st = .ctrl) {c : Byte} (hc : payloadByte s.cur s = .ok c) :
    Edge s (ctrlStep (hiNibble c) (loNibble c) s) := by
  simp only [ctrlStep, payloadByte_not_exhausted hc, Bool.false_eq_true, if_false]
  split
  · exact .ctrlExt h c hc ‹_›
  · exact .ctrlLit h c hc ‹_›

theorem litExtFetch_edge {s t : State} (h : s.st = .litExt) (ht : litExtFetch s = .next t) : Edge s t := by
  unfold litExtFetch at ht
  by_cases he : s.exhausted = true
  · rw [if_pos he] at ht; cases ht; exact .litExtEnd h (exhausted_iff.mp he)
  · rw [if_neg he] at ht
    cases hb : payloadByte s.cur s with
    | error f => simp [hb] at ht
    | ok e =>
      simp only [hb, Host.Outcome.next.injEq] at ht
      subst ht
      rw [litExtStep, if_neg he]
      exact .litExtByte h e hb

theorem litStep_edge {s t : State} (h : s.st = .lit) (ht : litStep s = .next t) : Edge s t := by
  unfold litStep at ht
  by_cases hl : s.runTooLong = true
  · rw [if_pos hl] at ht; cases ht; exact .litLong h (by simpa [State.runTooLong] using hl)
  · rw [if_neg hl] at ht
    have hl : s.litRem ≤ s.left := by simpa [State.runTooLong] using hl
    by_cases hp : 0 < s.litRem
    · rw [if_pos hp] at ht
      cases hb : payloadByte s.cur s with
      | error f => simp [hb] at ht
      | ok b =>
        simp only [hb, Host.Outcome.next.injEq] at ht
        subst ht
        cases hm : s.limitHit with
        | true => simpa [State.append, hm] using Edge.litLimit h hl hp b hb hm
        | false => simpa [State.append, hm] using Edge.litByte h hl hp b hb hm
    · rw [if_neg hp] at ht
      by_cases he : s.exhausted = true
      · rw [if_pos he] at ht; cases ht; exact .litFinish h (by omega) (exhausted_iff.mp he)
      · rw [if_neg he] at ht; cases ht; exact .litNext h (by omega) (fun e => he (exhausted_iff.mpr e))

theorem distStep_edge {s t : State} (h : s.st = .dist) (ht : distStep s = .next t) : Edge s t := by
  unfold distStep at ht
  by_cases hl : s.left < distBytes
  · rw [if_pos hl] at ht; cases ht; exact .distShort h hl
  · rw [if_neg hl] at ht
    have hl : 2 ≤ s.left := Nat.le_of_not_lt hl
    cases hd : distanceField s with
    | error f => simp [hd] at ht
    | ok d =>
      simp only [hd, Host.Outcome.next.injEq] at ht
      subst ht
      by_cases hb : d.toNat = 0 ∨ s.outLen < d.toNat
      · rw [setDistance_bad hb]; exact .distBad h hl d hd hb
      · have h1 : 1 ≤ d.toNat := by omega
        have h2 : d.toNat ≤ s.outLen := by omega
        by_cases hx : s.lb = lenEsc
        · rw [setDistance_chain h1 h2 hx]; exact .distChain h hl d hd h1 h2 hx
        · rw [setDistance_copy h1 h2 hx]; exact .distCopy h hl d hd h1 h2 hx

theorem chainFetch_edge {s t : State} (h : s.st = .lenExt) (ht : chainFetch s = .next t) : Edge s t := by
  unfold chainFetch at ht
  by_cases he : s.exhausted = true
  · rw [if_pos he] at ht; cases ht; exact .chainEnd h (exhausted_iff.mp he)
  · rw [if_neg he] at ht
    cases hb : payloadByte s.cur s with
    | error f => simp [hb] at ht
    | ok v =>
      simp only [hb, Host.Outcome.next.injEq] at ht
      subst ht
      rw [chainStep, if_neg he]
      by_cases hv : v = chainCont
      · subst hv; simpa using Edge.chainMore h hb
      · simpa [hv] using Edge.chainLast h v hb hv

theorem copyStep_edge {s t : State} (h : s.st = .copy) (ht : copyStep s = .next t) : Edge s t := by
  unfold copyStep at ht
  by_cases hp : 0 < s.copyRem
  · rw [if_pos hp] at ht
    cases hb : readBack s.dist.toNat s with
    | error f => simp [hb] at ht
    | ok b =>
      simp only [hb, Host.Outcome.next.injEq] at ht
      subst ht
      cases hm : s.limitHit with
      | true => simpa [State.append, hm] using Edge.copyLimit h hp b hb hm
      | false => simpa [State.append, hm] using Edge.copyByte h hp b hb hm
  · rw [if_neg hp] at ht; cases ht; exact .copyEnd h (by omega)

/-- Every step is a row of the table. -/
theorem edge_of_step {s t : State} (ht : step s = .next t) : Edge s t := by
  cases h : s.st with
  | idle => rw [step_resting (.inl h)] at ht; cases ht; exact .resting (.inl h)
  | done => rw [step_resting (.inr (.inl h))] at ht; cases ht; exact .resting (.inr (.inl h))
  | err => rw [step_resting (.inr (.inr h))] at ht; cases ht; exact .resting (.inr (.inr h))
  | magic =>
    by_cases hl : s.srcLen < magicBytes
    · rw [step_magic_short h hl] at ht; cases ht; exact .magicShort h hl
    · cases hw : srcWord 0 s with
      | ok w => rw [step_magic h hw] at ht; cases ht; exact magicStep_edge h hw
      | error f => simp [step, runFetched, fetch, h, fetchMagic, hl, hw] at ht
  | hdr =>
    by_cases hl : s.srcLen < hdrBytes
    · rw [step_hdr_short h hl] at ht; cases ht; exact .hdrShort h hl
    · cases hc : srcWord 4 s with
      | error f => simp [step, runFetched, fetch, h, fetchHdr, headerAt, hl, hc] at ht
      | ok c =>
        cases hn : srcWord 8 s with
        | error f => simp [step, runFetched, fetch, h, fetchHdr, headerAt, hl, hc, hn] at ht
        | ok n =>
          cases hr : srcWord 12 s with
          | error f => simp [step, runFetched, fetch, h, fetchHdr, headerAt, hl, hc, hn, hr] at ht
          | ok r => rw [step_hdr h hc hn hr] at ht; cases ht; exact headerStep_edge h hc hn hr
  | ctrl =>
    by_cases he : s.cur = s.csize.toNat
    · rw [step_ctrl_end h he] at ht; cases ht; exact .ctrlEnd h he
    · cases hc : payloadByte s.cur s with
      | ok c => rw [step_ctrl h hc] at ht; cases ht; exact ctrlStep_edge h hc
      | error f => simp [step, runFetched, fetch, h, fetchControl, he, hc] at ht
  | litExt => rw [step_litExt h] at ht; exact litExtFetch_edge h ht
  | lit => rw [step_lit h] at ht; exact litStep_edge h ht
  | dist => rw [step_dist h] at ht; exact distStep_edge h ht
  | lenExt => rw [step_lenExt h] at ht; exact chainFetch_edge h ht
  | copy => rw [step_copy h] at ht; exact copyStep_edge h ht

/-- Every row of the table is a step. -/
theorem step_of_edge {s t : State} (e : Edge s t) : step s = .next t := by
  cases e with
  | resting h => exact step_resting h
  | magicShort h hl => exact step_magic_short h hl
  | magicWrong h hl w hw hm =>
    have : ¬ s.srcLen < magicBytes := by simp only [magicBytes]; omega
    rw [step_magic h hw]; simp [magicStep, hm, this]
  | magicRight h hl hw =>
    have : ¬ s.srcLen < magicBytes := by simp only [magicBytes]; omega
    rw [step_magic h hw]; simp [magicStep, this]
  | hdrShort h hl => exact step_hdr_short h hl
  | hdrCut h hl c n r hc hn hr hs =>
    have h1 : ¬ s.srcLen < hdrBytes := by simp only [hdrBytes]; omega
    have h2 : s.srcLen - hdrBytes < c.toNat := hs
    rw [step_hdr h hc hn hr, headerStep, if_neg h1]; simp [h2]
  | hdrPass h hl c n r hc hn hr hs =>
    have h1 : ¬ s.srcLen < hdrBytes := by simp only [hdrBytes]; omega
    have h2 : ¬ s.srcLen - hdrBytes < c.toNat := by simp only [hdrBytes]; omega
    rw [step_hdr h hc hn hr, headerStep, if_neg h1]; simp [h2]
  | ctrlEnd h he => exact step_ctrl_end h he
  | ctrlExt h c hc hx => rw [step_ctrl h hc]; simp [ctrlStep, payloadByte_not_exhausted hc, hx]
  | ctrlLit h c hc hx => rw [step_ctrl h hc]; simp [ctrlStep, payloadByte_not_exhausted hc, hx]
  | litExtEnd h he => rw [step_litExt h]; simp [litExtFetch, he]
  | litExtByte h e hb => rw [step_litExt h]; simp [litExtFetch, litExtStep, payloadByte_not_exhausted hb, hb]
  | litLong h hl => rw [step_lit h]; simp [litStep, State.runTooLong, hl]
  | litLimit h hl hp b hb hm =>
    rw [step_lit h]; simp [litStep, State.runTooLong, Nat.not_lt.mpr hl, hp, hb, State.append, hm]
  | litByte h hl hp b hb hm =>
    rw [step_lit h]; simp [litStep, State.runTooLong, Nat.not_lt.mpr hl, hp, hb, State.append, hm]
  | litFinish h hz he => rw [step_lit h]; simp [litStep, State.runTooLong, hz, he]
  | litNext h hz he => rw [step_lit h]; simp [litStep, State.runTooLong, hz, he]
  | distShort h hl => rw [step_dist h]; simp [distStep, distBytes, hl]
  | distBad h hl d hd hb =>
    rw [step_dist h]; simp [distStep, distBytes, Nat.not_lt.mpr hl, hd, setDistance_bad hb]
  | distChain h hl d hd h1 h2 hx =>
    rw [step_dist h]; simp [distStep, distBytes, Nat.not_lt.mpr hl, hd, setDistance_chain h1 h2 hx]
  | distCopy h hl d hd h1 h2 hx =>
    rw [step_dist h]; simp [distStep, distBytes, Nat.not_lt.mpr hl, hd, setDistance_copy h1 h2 hx]
  | chainEnd h he => rw [step_lenExt h]; simp [chainFetch, he]
  | chainMore h hb => rw [step_lenExt h]; simp [chainFetch, chainStep, payloadByte_not_exhausted hb, hb]
  | chainLast h v hb hv => rw [step_lenExt h]; simp [chainFetch, chainStep, payloadByte_not_exhausted hb, hb, hv]
  | copyLimit h hp b hb hm => rw [step_copy h]; simp [copyStep, hp, hb, State.append, hm]
  | copyByte h hp b hb hm => rw [step_copy h]; simp [copyStep, hp, hb, State.append, hm]
  | copyEnd h hz => rw [step_copy h]; simp [copyStep, hz]

theorem step_iff_edge {s t : State} : step s = .next t ↔ Edge s t := ⟨edge_of_step, step_of_edge⟩

/-- What a token instruction does, by the control state: the rule of that state. -/
theorem exec_token_cases {i : Instr} {s t : State} (hi : i.site = .token) (h : exec i s = .next t) :
    (s.st = .ctrl ∧ ∃ hn ln, t = ctrlStep hn ln s) ∨ (s.st = .litExt ∧ litExtFetch s = .next t) ∨
    (s.st = .lit ∧ litStep s = .next t) ∨ (s.st = .dist ∧ distStep s = .next t) ∨
    (s.st = .lenExt ∧ chainFetch s = .next t) ∨ (s.st = .copy ∧ copyStep s = .next t) := by
  cases i <;> simp only [Instr.site, reduceCtorEq] at hi <;>
    simp only [exec, execTokXX, execTokXS, execTokSX, execTokSS, execFin] at h <;>
    split at h <;> simp_all <;> exact ⟨_, _, h.symm⟩

end Sys2Proof.Machine
end

