-- ==== Sys2Proof/Tests/Slice0.lean ====
section
/-! SUPPORT. Own tests. `test_…`: expected values from the encodings of 30_encoding.md and the worked examples and
vectors of 95_test_vectors.md, named in each comment. `witness_<Obligation>…`: a concrete state and operands that meet
the hypotheses of that obligation, one for each clause that has its own. -/

namespace Sys2Proof.Tests

open Machine

/-! ### Small states and readings -/

/-- The standard container of a payload (95_test_vectors.md, conventions). -/
def container (payload : List Byte) : List Byte :=
  [0xEE, 0xCC, 0xBB, 0xAA] ++ bytes32 (BitVec.ofNat 32 payload.length) ++ [0, 0, 0, 0, 0, 0, 0, 0] ++ payload

/-- A source loaded after reset, START issued. -/
def started (source : List Byte) : State := (State.reset.load source).start

/-- The state after a passed header, the cursor at the start of the payload. -/
def inPayload (payload : List Byte) : State :=
  { started (container payload) with
      magic := 0xAABBCCEE
      csize := BitVec.ofNat 32 payload.length
      st := .ctrl }

/-- The same in a later control state, at a cursor, with an output. -/
def midToken (st : Ctl) (cur : Nat) (out payload : List Byte) : State :=
  { inPayload payload with
      st := st
      cur := cur
      out := Memory.place 0 out
      outLen := out.length }

/-- The outcome is a next state with a property. -/
def nextIs (o : Host.Outcome State Fault Refusal) (p : State → Bool) : Bool :=
  match o with
  | .next t => p t
  | .fault _ => false
  | .refused _ => false

theorem next_of_nextIs {o : Host.Outcome State Fault Refusal} {p : State → Bool} (h : nextIs o p = true) :
    ∃ t, o = .next t ∧ p t = true := by
  cases o with
  | next t => exact ⟨t, rfl, h⟩
  | fault f => exact absurd h (by simp [nextIs])
  | refused r => exact absurd h (by simp [nextIs])

/-! ### Well-formedness: an ill-formed term for each check -/

theorem test_wf_instr_refuses : (Instr.tokXS 15).wellFormed = false ∧ (Instr.tokSX 15).wellFormed = false ∧
    (Instr.tokSS 15 0).wellFormed = false ∧ (Instr.tokSS 0 15).wellFormed = false ∧
    (Instr.chainLast 0xFF).wellFormed = false := by decide

theorem test_wf_instr_accepts : (Instr.hdr 0 0 0).wellFormed ∧ Instr.tokXX.wellFormed ∧ (Instr.tokXS 14).wellFormed ∧
    (Instr.tokSX 14).wellFormed ∧ (Instr.tokSS 14 14).wellFormed ∧ (Instr.fin 15 15).wellFormed ∧
    (Instr.lext 0xFF).wellFormed ∧ Instr.chainMore.wellFormed ∧ (Instr.chainLast 0xFE).wellFormed := by decide

theorem test_wf_token_refuses : (Token.tok [] 0 4).wellFormed = false ∧ (Token.tok [] 1 3).wellFormed = false ∧
    (Token.tok (List.replicate 271 0) 1 4).wellFormed = false ∧
    (Token.fin (List.replicate 271 0) 0).wellFormed = false := by
  simp only [Token.wellFormed, List.length_replicate]
  decide

theorem test_wf_token_accepts : (Token.tok (List.replicate 270 0) 0xFFFF 4).wellFormed ∧
    (Token.fin (List.replicate 270 0) 15).wellFormed := by
  simp only [Token.wellFormed, List.length_replicate]
  decide

/-- R90: a `fin` line must be the last line. -/
theorem test_wf_program_refuses :
    (Program.mk 0 0 none [.token (.fin [] 0), .rep 4] []).wellFormed = false ∧
    (Program.mk 0 0 none [.token (.tok [] 1 3), .rep 4] []).wellFormed = false ∧
    (Program.mk 0 0 none [.rep 3] []).wellFormed = false ∧
    (Program.mk 0 0 none [.copy 1 4, .bytes [0], .token (.fin [] 0)] []).wellFormed = true := by decide

/-! ### Decoding: words written out from the encoding tables -/

/-- R71: `EE CC BB AA`, then three little-endian words (the header of V15: `00 01 00 00` is 256). -/
theorem test_decode_hdr :
    decode .container [0xEE, 0xCC, 0xBB, 0xAA, 0, 1, 0, 0, 1, 0, 0, 0, 0xEF, 0xBE, 0xAD, 0xDE] =
      .ok (.hdr 256 1 0xDEADBEEF) := by decide

/-- V2, V3, V4: three bytes are no magic; a wrong bit and the big-endian spelling are wrong magics. -/
theorem test_decode_hdr_refuses :
    decode .container [] = .error .noBytes ∧
    decode .container [0xEE, 0xCC, 0xBB] = .error .headerTooShort ∧
    decode .container [0xEE, 0xCC, 0xBB, 0xAB] = .error (.wrongMagic 0xABBBCCEE) ∧
    decode .container [0xAA, 0xBB, 0xCC, 0xEE] = .error (.wrongMagic 0xEECCBBAA) ∧
    decode .container [0xEE, 0xCC, 0xBB, 0xAA, 0] = .error .headerTooShort := by decide

/-- R81: binary words, high nibble first. -/
theorem test_decode_tokens :
    decode .token [0b11111111] = .ok .tokXX ∧
    decode .token [0b11110000] = .ok (.tokXS 0) ∧
    decode .token [0b11111110] = .ok (.tokXS 14) ∧
    decode .token [0b11101111] = .ok (.tokSX 14) ∧
    decode .token [0b00011111] = .ok (.tokSX 1) ∧
    decode .token [0b11101110] = .ok (.tokSS 14 14) ∧
    decode .token [0b00100001, 0x41] = .ok (.tokSS 2 1) ∧
    decode .token [] = .error .noBytes := by decide

/-- R83, V30, V33, V34, V37: final exactly when the literal run ends at the end of the payload. -/
theorem test_decode_fin :
    decode .token [0x10, 0x41] = .ok (.fin 1 0) ∧
    decode .token [0x1F, 0x41] = .ok (.fin 1 15) ∧
    decode .token [0x0F] = .ok (.fin 0 15) ∧
    decode .token [0x10, 0x41, 0x01] = .ok (.tokSS 1 0) ∧
    decode .token [0x10] = .ok (.tokSS 1 0) ∧
    decode .token (0xF7 :: 0 :: List.replicate 15 0x2E) = .ok (.fin 15 7) ∧
    decode .token (0xF7 :: 0 :: List.replicate 14 0x2E) = .ok (.tokXS 7) := by decide

/-- R82: the bytes inside a token. -/
theorem test_decode_inner :
    decode .litCount [0xFF] = .ok (.lext 255) ∧
    decode .litCount [] = .error .noBytes ∧
    decode .chain [0xFF] = .ok .chainMore ∧
    decode .chain [0xFE, 0xFF] = .ok (.chainLast 254) ∧
    decode .chain [] = .error .noBytes := by decide

/-- S3, R80: length 539 is the chain `FF FF 0A`; 19 is the chain `00`; 18 has none. -/
theorem test_encode_length : encodeLength 539 = (15, [0xFF, 0xFF, 0x0A]) ∧ encodeLength 19 = (15, [0x00]) ∧
    encodeLength 18 = (14, []) ∧ encodeLength 274 = (15, [0xFF, 0x00]) ∧
    takeLength 15 [0xFF, 0xFF, 0x0A, 0x77] = .ok (539, [0x77]) := by decide

/-- S1, S2, R80: 15 is `F0 00`, 20 is `F0 05`, 14 is `E0`, 270 is `F0 FF`. -/
theorem test_encode_count : encodeCount 15 = (15, [0x00]) ∧ encodeCount 20 = (15, [0x05]) ∧
    encodeCount 14 = (14, []) ∧ encodeCount 270 = (15, [0xFF]) := by decide

/-- P1: `tok "AB", 1, 4` is `20 41 42 01 00` in a container of 5 bytes. -/
theorem test_assemble : assemble { body := [.token (.tok [0x41, 0x42] 1 4)] } =
    [0xEE, 0xCC, 0xBB, 0xAA, 5, 0, 0, 0, 0, 0, 0, 0, 0, 0, 0, 0, 0x20, 0x41, 0x42, 0x01, 0x00] := by decide

/-- What each cut of R182 is called. -/
theorem test_parse_cuts :
    parseToken [0xF0] = .error .literalExtMissing ∧
    parseToken [0x30, 0x41, 0x42] = .error .literalRunTooLong ∧
    parseToken [0x10, 0x41, 0x01] = .error .distanceCut ∧
    parseToken [0x1F, 0x5A, 0x01, 0x00] = .error .chainCut ∧
    parseToken [0x1F, 0x5A, 0x01, 0x00, 0xFF] = .error .chainCut ∧
    parseToken [0x1F, 0x5A, 0x01, 0x00, 0x0A, 0x00] = .ok (.tok [0x5A] 1 29, [0x00]) := by decide

/-! ### The host's table words -/

theorem test_decodeTableWord :
    decodeTableWord 32 0xAABBCCEE = some (.hdr 0 0 0) ∧ decodeTableWord 32 0xAABBCCEF = none ∧
    decodeTableWord 8 0xFF = some .tokXX ∧ decodeTableWord 8 0xF0 = some (.tokXS 0) ∧
    decodeTableWord 8 0x0F = some (.tokSX 0) ∧ decodeTableWord 8 0x00 = some (.tokSS 0 0) := by decide

theorem test_withFetchWord :
    fetch (State.reset.withFetchWord 32 0xAABBCCEE) = .instr (.hdr 0 0 0) ∧
    fetch (State.reset.withFetchWord 8 0xFF) = .instr .tokXX ∧
    fetch (State.reset.withFetchWord 8 0xE3) = .instr (.tokSS 14 3) := by decide

/-! ### Single steps -/

/-- V3, V4: `InvalidMagic`; the word is latched, the output is empty. -/
theorem test_step_magic :
    nextIs (step (started [0xEE, 0xCC, 0xBB, 0xAB]))
      (fun t => t.status == .err && t.errCode == .invalidMagic && t.outLen == 0 && t.magic == 0xABBBCCEE) ∧
    nextIs (step (started [0xEE, 0xCC, 0xBB])) (fun t => t.errCode == .truncatedInput) ∧
    nextIs (step (started [0xEE, 0xCC, 0xBB, 0xAA])) (fun t => t.st == .hdr && t.status == .busy) := by decide

/-- V7 (passes), V8 (`CSIZE = 1 > 0`), V6 (15 bytes). -/
theorem test_step_hdr :
    nextIs (step { started (container []) with st := .hdr }) (fun t => t.st == .ctrl && t.csize == 0) ∧
    nextIs (step { started ([0xEE, 0xCC, 0xBB, 0xAA, 1] ++ List.replicate 11 0) with st := .hdr })
      (fun t => t.errCode == .truncatedInput && t.csize == 1) ∧
    nextIs (step { started ([0xEE, 0xCC, 0xBB, 0xAA] ++ List.replicate 11 0) with st := .hdr })
      (fun t => t.errCode == .truncatedInput) := by decide

/-- R110: `0x2F` splits into 2 and 15; `0xF3` calls for the extension byte. -/
theorem test_step_ctrl :
    nextIs (step (inPayload [0x2F, 0x41])) (fun t => t.lc == 2 && t.lb == 15 && t.litRem == 2 && t.cur == 1 &&
      t.st == .lit) ∧
    nextIs (step (inPayload [0xF3, 0x41])) (fun t => t.lc == 15 && t.lb == 3 && t.cur == 1 && t.st == .litExt) ∧
    nextIs (step (inPayload [])) (fun t => t.st == .done && t.status == .doneOk && t.outLen == 0) := by decide

/-- S2 and R113: `05` gives 20, `FF` gives 270 and no second extension byte; V24: missing. -/
theorem test_step_litExt :
    nextIs (step { midToken .litExt 1 [] [0xF0, 0x05] with lc := 15 })
      (fun t => t.lc == 20 && t.litRem == 20 && t.cur == 2 && t.st == .lit) ∧
    nextIs (step { midToken .litExt 1 [] [0xF0, 0xFF] with lc := 15 }) (fun t => t.lc == 270 && t.st == .lit) ∧
    nextIs (step { midToken .litExt 1 [] [0xF0] with lc := 15 }) (fun t => t.errCode == .truncatedInput) := by decide

/-- V30: the literal is appended, then the run ends; V36: too long; a limit of 0 stops before the byte. -/
theorem test_step_lit :
    nextIs (step { midToken .lit 1 [] [0x10, 0x41] with litRem := 1 })
      (fun t => t.out == [(0, 0x41)] && t.outLen == 1 && t.cur == 2 && t.litRem == 0 && t.st == .lit) ∧
    nextIs (step (midToken .lit 2 [0x41] [0x10, 0x41])) (fun t => t.st == .done && t.outLen == 1) ∧
    nextIs (step { midToken .lit 1 [] [0x10] with litRem := 1 }) (fun t => t.errCode == .truncatedInput) ∧
    nextIs (step { midToken .lit 1 [] [0x10, 0x41] with litRem := 1, maxOut := some 0 })
      (fun t => t.errCode == .outputLimit && t.outLen == 0) := by decide

/-- V60 to V64: distances 0, 2 past one byte, 1 and 256 in little-endian; V37: one byte left. -/
theorem test_step_dist :
    nextIs (step (midToken .dist 2 [0x41] [0x10, 0x41, 0x00, 0x00])) (fun t => t.errCode == .invalidDistance) ∧
    nextIs (step (midToken .dist 2 [0x41] [0x10, 0x41, 0x02, 0x00])) (fun t => t.errCode == .invalidDistance) ∧
    nextIs (step (midToken .dist 2 [0x41] [0x10, 0x41, 0x00, 0x01])) (fun t => t.dist == 256 && t.st == .err) ∧
    nextIs (step (midToken .dist 2 [0x41] [0x10, 0x41, 0x01])) (fun t => t.errCode == .truncatedInput) ∧
    nextIs (step (midToken .dist 2 [0x41] [0x10, 0x41, 0x01, 0x00]))
      (fun t => t.dist == 1 && t.brLen == 4 && t.copyRem == 4 && t.cur == 4 && t.st == .copy) ∧
    nextIs (step { midToken .dist 2 [0x5A] [0x1F, 0x5A, 0x01, 0x00] with lb := 15 })
      (fun t => t.brLen == 19 && t.st == .lenExt) := by decide

/-- S3: 19, 274, 529, 539. -/
theorem test_step_chain :
    nextIs (step { midToken .lenExt 0 [0x5A] [0xFF] with lb := 15, brLen := 274 })
      (fun t => t.brLen == 529 && t.cur == 1 && t.st == .lenExt) ∧
    nextIs (step { midToken .lenExt 0 [0x5A] [0x0A] with lb := 15, brLen := 529 })
      (fun t => t.brLen == 539 && t.copyRem == 539 && t.st == .copy) ∧
    nextIs (step { midToken .lenExt 1 [0x5A] [0xFF] with lb := 15, brLen := 274 })
      (fun t => t.errCode == .truncatedInput) := by decide

/-- S5: the copy reads the byte the last copy appended; a copy that is done goes back to the control byte. -/
theorem test_step_copy :
    nextIs (step { midToken .copy 0 [0x41, 0x42, 0x42] [] with dist := 1, copyRem := 3 })
      (fun t => t.out == [(0, 0x41), (1, 0x42), (2, 0x42), (3, 0x42)] && t.outLen == 4 && t.copyRem == 2) ∧
    nextIs (step { midToken .copy 0 [0x41, 0x42] [] with dist := 2, copyRem := 3 })
      (fun t => t.out.read 2 == some 0x41) ∧
    nextIs (step { midToken .copy 0 [0x41] [] with dist := 1, copyRem := 0 }) (fun t => t.st == .ctrl) ∧
    nextIs (step { midToken .copy 0 [0x41] [] with dist := 1, copyRem := 3, maxOut := some 1 })
      (fun t => t.errCode == .outputLimit && t.outLen == 0) := by decide

/-- The meanings, called in the control states they have a step rule for and in one they have none for. -/
theorem test_exec_sequence :
    nextIs (exec (.hdr 0 0 0) (started (container []))) (fun t => t.st == .hdr) ∧
    nextIs (exec .tokXX (inPayload [0xFF])) (fun t => t.st == .litExt) ∧
    nextIs (exec (.lext 5) { midToken .litExt 1 [] [0xF0, 0x05] with lc := 15 }) (fun t => t.lc == 20) ∧
    nextIs (exec .chainMore { midToken .lenExt 0 [0x5A] [0xFF] with brLen := 19 }) (fun t => t.brLen == 274) ∧
    nextIs (exec .chainMore (inPayload [0xFF])) (fun _ => true) = false := by decide

/-- R217, U13 and U15: no host write and no output read while a run is in progress. -/
theorem test_host :
    nextIs (hostDo .start (inPayload [])) (fun _ => true) = false ∧
    nextIs (hostDo (.setLimit (some 3)) State.reset) (fun t => t.maxOut == some 3) ∧
    hostReadOut 0 (midToken .done 0 [0x41] []) = .error .hostReadNotDefined ∧
    hostReadOut 0 { midToken .done 0 [0x41] [] with status := .doneOk } = .ok 0x41 ∧
    hostReadOut 1 { midToken .done 0 [0x41] [] with status := .doneOk } = .error .hostReadNotDefined ∧
    hostRead .errCode (State.reset.raise .outputLimit) = .ok 4 := by decide

/-- V16, V17, V18, V19, V60, V66 and S5 by the function of R156. -/
theorem test_decodeSource :
    decodeSource (container [0x20, 0x41, 0x42, 0x01, 0x00]) none = .ok [0x41, 0x42, 0x42, 0x42, 0x42, 0x42] ∧
    decodeSource (container [0x20, 0x41, 0x42, 0x01]) none = .error .truncatedInput ∧
    decodeSource (container [0x20, 0x41, 0x42]) none = .ok [0x41, 0x42] ∧
    decodeSource (container [0x20, 0x41]) none = .error .truncatedInput ∧
    decodeSource (container [0x10, 0x41, 0x00, 0x00]) none = .error .invalidDistance ∧
    decodeSource (container [0x1F, 0x5A, 0x01, 0x00]) none = .error .truncatedInput ∧
    decodeSource (container [0x20, 0x41, 0x42, 0x01, 0x00]) (some 5) = .error .outputLimit := by decide

/-! ### Witnesses: the hypotheses of the obligations are met -/

theorem witness_ResetGivesSpecifiedValues : (inPayload []).status = .busy ∧ HostCmd.start ≠ .reset := by decide

theorem witness_RestingBlockKeepsItsState : State.reset.st = .idle ∧ State.reset.finish.st = .done ∧
    (State.reset.raise .invalidMagic).st = .err := by decide

theorem witness_StartBeginsFreshRun : State.reset.status = .idle ∧ State.reset.finish.status = .doneOk ∧
    (State.reset.raise .invalidMagic).status = .err ∧ (inPayload []).status = .busy := by decide

theorem witness_HostWritesOnlyBetweenRuns : (inPayload []).status = .busy ∧ State.reset.status ≠ .busy := by decide

/-- A state of a run in progress, one after a success and one after an abort that meet the invariant. -/
theorem witness_inv_busy : (inPayload [0x10, 0x41]).Inv ∧ (inPayload [0x10, 0x41]).status = .busy :=
  ⟨by constructor <;> decide, rfl⟩

/-- V30 at its end. -/
def doneState : State := { midToken .done 2 [0x41] [0x10, 0x41] with status := .doneOk }

/-- V36 at its end. -/
def errState : State := (midToken .lit 1 [] [0x10]).raise .truncatedInput

/-- Before the first START, a limit set. -/
def idleState : State := { State.reset with maxOut := some 3 }

theorem witness_inv_done : doneState.Inv ∧ doneState.status = .doneOk := ⟨by constructor <;> decide, rfl⟩

theorem witness_inv_err : errState.Inv ∧ errState.status = .err := ⟨by constructor <;> decide, rfl⟩

/-- Each status; after the success an `OUT` of one byte, so that 0 is below `OUT_LEN` and 1 is `OUT_LEN`. -/
theorem witness_HostSeesOnlyWhatIsDefined : doneState.Inv ∧ doneState.status = .doneOk ∧ 0 < doneState.outLen ∧
    doneState.outLen ≤ 1 ∧ errState.Inv ∧ errState.status = .err ∧ (inPayload [0x10, 0x41]).Inv ∧
    (inPayload [0x10, 0x41]).status = .busy ∧ idleState.Inv ∧ idleState.status = .idle :=
  ⟨witness_inv_done.1, rfl, by decide, by decide, witness_inv_err.1, rfl, witness_inv_busy.1, rfl,
    by constructor <;> decide, rfl⟩

/-- Three bytes; four of a wrong magic; four of the right one. -/
theorem witness_MagicStepRule : (started [0xEE, 0xCC, 0xBB]).st = .magic ∧ (started [0xEE, 0xCC, 0xBB]).srcLen < 4 ∧
    4 ≤ (started [0xEE, 0xCC, 0xBB, 0xAB]).srcLen ∧
    (started [0xEE, 0xCC, 0xBB, 0xAB]).src.slice 0 4 = some [0xEE, 0xCC, 0xBB, 0xAB] ∧
    (started [0xEE, 0xCC, 0xBB, 0xAA]).src.slice 0 4 = some [0xEE, 0xCC, 0xBB, 0xAA] := by decide

/-- A source in `S_HDR`. -/
def inHeader (source : List Byte) : State := { started source with st := .hdr }

/-- Fifteen bytes of a header; sixteen that declare one payload byte and hold none. -/
def header15 : List Byte := [0xEE, 0xCC, 0xBB, 0xAA] ++ List.replicate 11 0
def header16 : List Byte := [0xEE, 0xCC, 0xBB, 0xAA, 1] ++ List.replicate 11 0

/-- Fifteen bytes; sixteen with `CSIZE = 1` (cut) and `CSIZE = 0` (passes). -/
theorem witness_HeaderStepRule :
    (inHeader header15).st = .hdr ∧ (inHeader header15).srcLen < 16 ∧
    (inHeader header16).st = .hdr ∧ 16 ≤ (inHeader header16).srcLen ∧
    (inHeader header16).src.slice 4 12 = some (1 :: List.replicate 11 0) ∧
    (inHeader header16).srcLen - 16 < (le32 1 0 0 0).toNat ∧
    (inHeader (container [])).st = .hdr ∧ 16 ≤ (inHeader (container [])).srcLen ∧
    (inHeader (container [])).src.slice 4 12 = some (List.replicate 12 0) ∧
    (inHeader (container [])).srcLen - 16 = (le32 0 0 0 0).toNat := by decide

/-- The payload fills the source exactly. -/
theorem witness_HdrCompletes : 16 ≤ (started (container [0x00])).srcLen ∧
    (1 : Word).toNat ≤ (started (container [0x00])).srcLen - 16 ∧ (started (container [0x00])).st = .magic ∧
    (inHeader (container [0x00])).st = .hdr ∧ 16 ≤ (inHeader (container [0x00])).srcLen := by decide

/-- Three bytes in `S_MAGIC`; the header cut at 15 bytes and the payload one byte short in `S_HDR`; the payload
exhausted before an extension byte. -/
theorem witness_CutShortUnitsAbort :
    (started [0xEE, 0xCC, 0xBB]).st = .magic ∧ (started [0xEE, 0xCC, 0xBB]).srcLen < 4 ∧
    (inHeader header15).st = .hdr ∧ (inHeader header15).srcLen < 16 ∧
    (inHeader header16).st = .hdr ∧ 16 ≤ (inHeader header16).srcLen ∧
    (inHeader header16).srcLen - 16 < (1 : Word).toNat ∧
    (midToken .litExt 1 [] [0xF0]).st = .litExt ∧
    (midToken .litExt 1 [] [0xF0]).cur = (midToken .litExt 1 [] [0xF0]).csize.toNat ∧
    (midToken .lenExt 1 [0x41] [0xFF]).st = .lenExt ∧
    (midToken .lenExt 1 [0x41] [0xFF]).cur = (midToken .lenExt 1 [0x41] [0xFF]).csize.toNat := by decide

/-- The payload exhausted; a high nibble of 15; one of 14. -/
theorem witness_ControlStepRule : (inPayload []).st = .ctrl ∧ (inPayload []).cur = (inPayload []).csize.toNat ∧
    (inPayload [0xF0]).atPayload [0xF0] ∧ (0xF0 : Byte).toNat / 16 = 15 ∧
    (inPayload [0xEF]).atPayload [0xEF] ∧ (0xEF : Byte).toNat / 16 ≠ 15 :=
  ⟨rfl, rfl, ⟨by decide, by decide, by decide⟩, by decide, ⟨by decide, by decide, by decide⟩, by decide⟩

theorem witness_LitExtStepRule : (midToken .litExt 1 [] [0xF0]).cur = (midToken .litExt 1 [] [0xF0]).csize.toNat ∧
    (midToken .litExt 1 [] [0xF0, 0xFF]).atPayload [0xFF] := ⟨rfl, by decide, by decide, by decide⟩

theorem witness_LextCompletes : (midToken .litExt 1 [] [0xF0, 0xFF]).st = .litExt ∧
    (midToken .litExt 1 [] [0xF0, 0xFF]).cur < (midToken .litExt 1 [] [0xF0, 0xFF]).csize.toNat := by decide

/-- `litLast` has its last byte to copy at the end of the payload, below and at the limit. -/
def litLast (limit : Option Nat) : State := { midToken .lit 1 [] [0x10, 0x41] with litRem := 1, maxOut := limit }

theorem witness_LiteralStepRule :
    ({ midToken .lit 1 [] [0x10] with litRem := 1 } : State).csize.toNat - 1 < 1 ∧
    0 < (litLast none).litRem ∧ (litLast none).litRem ≤ (litLast none).csize.toNat - (litLast none).cur ∧
    (litLast none).atPayload [0x41] ∧ atLimit (litLast none).maxOut (litLast none).outLen = false ∧
    atLimit (litLast (some 0)).maxOut (litLast (some 0)).outLen = true ∧
    (midToken .lit 2 [0x41] [0x10, 0x41]).litRem = 0 ∧
    (midToken .lit 2 [0x41] [0x10, 0x41]).cur = (midToken .lit 2 [0x41] [0x10, 0x41]).csize.toNat ∧
    (midToken .lit 2 [0x41] [0x10, 0x41, 1]).cur ≠ (midToken .lit 2 [0x41] [0x10, 0x41, 1]).csize.toNat :=
  ⟨by decide, by decide, by decide, ⟨by decide, by decide, by decide⟩, by decide, by decide, by decide, by decide,
    by decide⟩

/-- One byte left; distances 0, `OUT_LEN + 1` and `OUT_LEN`, the last with length bases 15 and 14. -/
theorem witness_DistanceStepRule :
    (midToken .dist 2 [0x41] [0x10, 0x41, 1]).csize.toNat - 2 < 2 ∧
    (midToken .dist 2 [0x41] [0x10, 0x41, 0, 0]).atPayload [0, 0] ∧ (le16 0 0).toNat = 0 ∧
    (midToken .dist 2 [0x41] [0x10, 0x41, 2, 0]).atPayload [2, 0] ∧
    (midToken .dist 2 [0x41] [0x10, 0x41, 2, 0]).outLen < (le16 2 0).toNat ∧
    ({ midToken .dist 2 [0x41] [0x1F, 0x41, 1, 0] with lb := 15 } : State).atPayload [1, 0] ∧
    ({ midToken .dist 2 [0x41] [0x1E, 0x41, 1, 0] with lb := 14 } : State).atPayload [1, 0] ∧
    (le16 1 0).toNat = 1 :=
  ⟨by decide, ⟨by decide, by decide, by decide⟩, by decide, ⟨by decide, by decide, by decide⟩, by decide,
    ⟨by decide, by decide, by decide⟩, ⟨by decide, by decide, by decide⟩, by decide⟩

theorem witness_ChainStepRule : (midToken .lenExt 1 [0x41] [0xFF]).cur = (midToken .lenExt 1 [0x41] [0xFF]).csize.toNat ∧
    (midToken .lenExt 0 [0x41] [0xFF]).atPayload [0xFF] ∧ (midToken .lenExt 0 [0x41] [0xFE]).atPayload [0xFE] :=
  ⟨rfl, ⟨by decide, by decide, by decide⟩, by decide, by decide, by decide⟩

/-- `copyLast` has one byte to copy, at distance 1 from an output of one byte, below and at the limit. -/
def copyLast (limit : Option Nat) : State := { midToken .copy 0 [0x41] [] with dist := 1, copyRem := 1, maxOut := limit }

theorem witness_CopyStepRule : 0 < (copyLast none).copyRem ∧ 1 ≤ (copyLast none).dist.toNat ∧
    (copyLast none).dist.toNat ≤ (copyLast none).outLen ∧
    (copyLast none).out.read ((copyLast none).outLen - (copyLast none).dist.toNat) = some 0x41 ∧
    atLimit (copyLast none).maxOut 1 = false ∧ atLimit (copyLast (some 1)).maxOut 1 = true ∧
    (midToken .copy 0 [0x41] []).copyRem = 0 := by decide

theorem witness_ChainMoreCompletes : (midToken .lenExt 0 [0x41] [0xFF]).st = .lenExt ∧
    (midToken .lenExt 0 [0x41] [0xFF]).cur < (midToken .lenExt 0 [0x41] [0xFF]).csize.toNat := by decide

theorem witness_ChainLastCompletes : (0xFE : Byte) ≠ 0xFF ∧ (midToken .lenExt 0 [0x41] [0xFE]).st = .lenExt ∧
    (midToken .lenExt 0 [0x41] [0xFE]).cur < (midToken .lenExt 0 [0x41] [0xFE]).csize.toNat := by decide

/-! Without a limit there is room; a finite limit is met exactly, so that no byte more would fit. -/

theorem hasRoom_unlimited {s : State} {n : Nat} (h : s.maxOut = none) : s.hasRoom n := by
  intro k hk
  rw [h] at hk
  cases hk

theorem hasRoom_exact {s : State} {n m : Nat} (h : s.maxOut = some m) (hm : s.outLen + n = m) : s.hasRoom n := by
  intro k hk
  rw [h] at hk
  cases hk
  omega

theorem witness_LiteralStepRule_run :
    (litLast (some 1)).st = .lit ∧ (litLast (some 1)).litRem = [(0x41 : Byte)].length ∧
    (litLast (some 1)).atPayload [0x41] ∧ (litLast (some 1)).hasRoom 1 :=
  ⟨rfl, rfl, ⟨by decide, by decide, by decide⟩, hasRoom_exact rfl rfl⟩

/-- `FF 0A` and the cut chain `FF`; also the chain that is cut before its first byte. -/
theorem witness_ChainAddsEveryByte :
    (midToken .lenExt 0 [0x5A] [0xFF, 0x0A]).atPayload (List.replicate 1 0xFF ++ [0x0A]) ∧
    (midToken .lenExt 0 [0x5A] [0xFF]).atPayload (List.replicate 1 0xFF) ∧
    (midToken .lenExt 0 [0x5A] [0xFF]).cur + 1 = (midToken .lenExt 0 [0x5A] [0xFF]).csize.toNat ∧
    (midToken .lenExt 0 [0x5A] []).atPayload (List.replicate 0 0xFF) :=
  ⟨⟨by decide, by decide, by decide⟩, ⟨by decide, by decide, by decide⟩, rfl, by decide, by decide, by decide⟩

/-- S5 at the start of its copy: distance 1, length 4, output `AB`. -/
def copyB (limit : Option Nat) : State := { midToken .copy 0 [0x41, 0x42] [] with dist := 1, copyRem := 4, maxOut := limit }

theorem witness_CopyIsGrowthAware : (copyB (some 6)).st = .copy ∧ (copyB (some 6)).output = some [0x41, 0x42] ∧
    1 ≤ (copyB (some 6)).dist.toNat ∧ (copyB (some 6)).dist.toNat ≤ (copyB (some 6)).outLen ∧
    (copyB (some 6)).hasRoom (copyB (some 6)).copyRem :=
  ⟨rfl, by decide, by decide, by decide, hasRoom_exact rfl rfl⟩

theorem witness_DistanceOneRepeatsLastByte : (copyB none).st = .copy ∧ (copyB none).dist = 1 ∧
    (copyB none).output = some ([0x41] ++ [0x42]) ∧ (copyB none).hasRoom (copyB none).copyRem :=
  ⟨rfl, rfl, by decide, hasRoom_unlimited rfl⟩

/-- Distance equal to the length: the largest copy that overlaps nothing. -/
def copyPlain : State := { midToken .copy 0 [0x61, 0x62, 0x63, 0x64] [] with dist := 4, copyRem := 4 }

theorem witness_NonOverlappingCopyIsPlain : copyPlain.st = .copy ∧ copyPlain.output = some [0x61, 0x62, 0x63, 0x64] ∧
    1 ≤ copyPlain.dist.toNat ∧ copyPlain.dist.toNat ≤ copyPlain.outLen ∧ copyPlain.copyRem ≤ copyPlain.dist.toNat ∧
    copyPlain.hasRoom copyPlain.copyRem :=
  ⟨rfl, by decide, by decide, by decide, by decide, hasRoom_unlimited rfl⟩

/-- S5 whole, the limit met exactly. -/
def ssToken : State := { inPayload [0x20, 0x41, 0x42, 0x01, 0x00] with maxOut := some 6 }

theorem witness_TokSSRunsWholeToken : (2 : Nibble) ≠ 15 ∧ (0 : Nibble) ≠ 15 ∧
    [(0x41 : Byte), 0x42].length = (2 : Nibble).toNat ∧ ssToken.st = .ctrl ∧ ssToken.output = some [] ∧
    ssToken.atPayload (controlByte 2 0 :: ([0x41, 0x42] ++ bytes16 1)) ∧ 1 ≤ (1 : Half).toNat ∧
    (1 : Half).toNat ≤ ssToken.outLen + 2 ∧ ssToken.hasRoom (2 + (4 + (0 : Nibble).toNat)) :=
  ⟨by decide, by decide, rfl, rfl, by decide, ⟨by decide, by decide, by decide⟩, by decide, by decide,
    hasRoom_exact rfl rfl⟩

/-- `F0 00`, fifteen literals, distance 15, which is the whole output. -/
theorem witness_TokXSRunsWholeToken : (0 : Nibble) ≠ 15 ∧
    (List.replicate 15 (0x61 : Byte)).length = 15 + (0 : Byte).toNat ∧
    (inPayload (0xF0 :: 0 :: (List.replicate 15 0x61 ++ [15, 0]))).atPayload
      (controlByte 15 0 :: 0 :: (List.replicate 15 0x61 ++ bytes16 15)) ∧
    (inPayload (0xF0 :: 0 :: (List.replicate 15 0x61 ++ [15, 0]))).output = some [] ∧
    (15 : Half).toNat ≤ 0 + 15 ∧
    (inPayload (0xF0 :: 0 :: (List.replicate 15 0x61 ++ [15, 0]))).hasRoom 19 :=
  ⟨by decide, by decide, ⟨by decide, by decide, by decide⟩, by decide, by decide, hasRoom_unlimited rfl⟩

/-- V45a: the chain `FF 00`. -/
theorem witness_TokSXRunsWholeToken : (1 : Nibble) ≠ 15 ∧ (0 : Byte) ≠ 0xFF ∧
    [(0x5A : Byte)].length = (1 : Nibble).toNat ∧
    (inPayload [0x1F, 0x5A, 1, 0, 0xFF, 0]).atPayload
      (controlByte 1 15 :: ([0x5A] ++ bytes16 1 ++ (List.replicate 1 0xFF ++ [0]))) ∧
    (inPayload [0x1F, 0x5A, 1, 0, 0xFF, 0]).output = some [] ∧ (1 : Half).toNat ≤ 0 + 1 ∧
    (inPayload [0x1F, 0x5A, 1, 0, 0xFF, 0]).hasRoom (1 + (19 + 255 * 1 + 0)) :=
  ⟨by decide, by decide, by decide, ⟨by decide, by decide, by decide⟩, by decide, by decide, hasRoom_unlimited rfl⟩

theorem witness_TokXXRunsWholeToken : (0 : Byte) ≠ 0xFF ∧
    (List.replicate 15 (0x61 : Byte)).length = 15 + (0 : Byte).toNat ∧
    (inPayload (0xFF :: 0 :: (List.replicate 15 0x61 ++ [15, 0, 0]))).atPayload
      (0xFF :: 0 :: (List.replicate 15 0x61 ++ bytes16 15 ++ (List.replicate 0 0xFF ++ [0]))) ∧
    (inPayload (0xFF :: 0 :: (List.replicate 15 0x61 ++ [15, 0, 0]))).output = some [] ∧
    (inPayload (0xFF :: 0 :: (List.replicate 15 0x61 ++ [15, 0, 0]))).hasRoom (15 + (19 + 255 * 0 + 0)) :=
  ⟨by decide, by decide, ⟨by decide, by decide, by decide⟩, by decide, hasRoom_unlimited rfl⟩

/-- V34 (`1F 41`) and V39 (`F7 00` and fifteen bytes). -/
theorem witness_FinEndsTheRun :
    (inPayload [0x1F, 0x41]).atPayload (controlByte 1 15 :: [0x41]) ∧
    (inPayload [0x1F, 0x41]).cur + (1 + 1) = (inPayload [0x1F, 0x41]).csize.toNat ∧
    (inPayload [0x1F, 0x41]).hasRoom 1 ∧
    (inPayload (0xF7 :: 0 :: List.replicate 15 0x2E)).atPayload (controlByte 15 7 :: 0 :: List.replicate 15 0x2E) ∧
    (inPayload (0xF7 :: 0 :: List.replicate 15 0x2E)).cur + (2 + 15) =
      (inPayload (0xF7 :: 0 :: List.replicate 15 0x2E)).csize.toNat ∧
    (inPayload (0xF7 :: 0 :: List.replicate 15 0x2E)).hasRoom 15 :=
  ⟨⟨by decide, by decide, by decide⟩, by decide, hasRoom_unlimited rfl, ⟨by decide, by decide, by decide⟩, by decide,
    hasRoom_unlimited rfl⟩

theorem witness_StepsRunWholeToken : (Token.tok [0x41, 0x42] 1 4).wellFormed = true ∧ ssToken.output = some [] ∧
    ssToken.atPayload (encodeToken (.tok [0x41, 0x42] 1 4)) ∧ distanceValid [] (.tok [0x41, 0x42] 1 4) = true ∧
    ssToken.hasRoom (2 + 4) :=
  ⟨by decide, by decide, ⟨by decide, by decide, by decide⟩, by decide, hasRoom_exact rfl rfl⟩

/-- One execution in each control state of a token. -/
theorem witness_TokenFrame : Instr.tokXX.site = .token ∧
    (∃ t, exec .tokXX (inPayload [0xFF]) = .next t ∧ true) ∧
    (∃ t, exec .tokXX (midToken .litExt 1 [] [0xFF, 0]) = .next t ∧ true) ∧
    (∃ t, exec .tokXX (litLast none) = .next t ∧ true) ∧
    (∃ t, exec .tokXX (midToken .dist 0 [0x41] [1, 0]) = .next t ∧ true) ∧
    (∃ t, exec .tokXX (midToken .lenExt 0 [0x41] [0]) = .next t ∧ true) ∧
    (∃ t, exec .tokXX (copyLast none) = .next t ∧ true) :=
  ⟨rfl, next_of_nextIs (by decide), next_of_nextIs (by decide), next_of_nextIs (by decide),
    next_of_nextIs (by decide), next_of_nextIs (by decide), next_of_nextIs (by decide)⟩

theorem witness_HdrFrame : (∃ t, exec (.hdr 0 0 0) (started (container [])) = .next t ∧ true) ∧
    (∃ t, exec (.hdr 0 0 0) { started (container []) with st := .hdr } = .next t ∧ true) :=
  ⟨next_of_nextIs (by decide), next_of_nextIs (by decide)⟩

theorem witness_ExtensionFrame : (Instr.lext 0).site = .litCount ∧ Instr.chainMore.site = .chain ∧
    (∃ t, exec (.lext 0) (midToken .litExt 1 [] [0xF0, 0]) = .next t ∧ true) ∧
    (∃ t, exec .chainMore (midToken .lenExt 0 [0x41] [0xFF]) = .next t ∧ true) ∧
    (∃ t, exec (.chainLast 0) (midToken .lenExt 0 [0x41] [0]) = .next t ∧ true) :=
  ⟨rfl, rfl, next_of_nextIs (by decide), next_of_nextIs (by decide), next_of_nextIs (by decide)⟩

/-- A step from a busy state: for the statements about every step. -/
theorem witness_DecoderNeverWritesInputs : ∃ t, step (litLast none) = .next t ∧ t.outLen == 1 :=
  next_of_nextIs (by decide)

theorem witness_HeaderLatchesHeld : (litLast none).st ≠ .magic ∧ (litLast none).st ≠ .hdr ∧
    ∃ t, step (litLast none) = .next t ∧ true := ⟨by decide, by decide, next_of_nextIs (by decide)⟩

theorem witness_OutputOnlyGrows : ∃ t, step (litLast none) = .next t ∧ t.status != .err && t.outLen == 1 :=
  next_of_nextIs (by decide)

/-- A next state for each clause: the header steps; the end test and the control byte; an extension and a chain byte,
missing and present. -/
theorem witness_CursorOnlyAdvances :
    (∃ t, step (started (container [])) = .next t ∧ t.st == .hdr) ∧
    (∃ t, step (inHeader (container [])) = .next t ∧ t.st == .ctrl) ∧
    (∃ t, step (inPayload []) = .next t ∧ t.st == .done) ∧
    (∃ t, step (inPayload [0x10]) = .next t ∧ t.st == .lit) ∧
    (∃ t, step (midToken .litExt 1 [] [0xF0]) = .next t ∧ t.st == .err) ∧
    (∃ t, step (midToken .litExt 1 [] [0xF0, 0]) = .next t ∧ t.st == .lit) ∧
    (∃ t, step (midToken .lenExt 0 [0x41] []) = .next t ∧ t.st == .err) ∧
    (∃ t, step (midToken .lenExt 0 [0x41] [0]) = .next t ∧ t.st == .copy) :=
  ⟨next_of_nextIs (by decide), next_of_nextIs (by decide), next_of_nextIs (by decide), next_of_nextIs (by decide),
    next_of_nextIs (by decide), next_of_nextIs (by decide), next_of_nextIs (by decide), next_of_nextIs (by decide)⟩

/-- A literal byte and the three other ends of `S_LIT`; a distance cut, invalid and valid; a copied byte. -/
theorem witness_CursorOnlyAdvances_run :
    (∃ t, step (litLast none) = .next t ∧ t.st == .lit) ∧
    (∃ t, step (litLast (some 0)) = .next t ∧ t.st == .err) ∧
    (∃ t, step (midToken .lit 2 [0x41] [0x10, 0x41]) = .next t ∧ t.st == .done) ∧
    (∃ t, step (midToken .lit 2 [0x41] [0x10, 0x41, 1]) = .next t ∧ t.st == .dist) ∧
    (∃ t, step (midToken .dist 0 [0x41] [1]) = .next t ∧ t.errCode == .truncatedInput) ∧
    (∃ t, step (midToken .dist 0 [0x41] [2, 0]) = .next t ∧ t.errCode == .invalidDistance) ∧
    (∃ t, step (midToken .dist 0 [0x41] [1, 0]) = .next t ∧ t.st == .copy) ∧
    (∃ t, step (copyLast none) = .next t ∧ t.st == .copy) :=
  ⟨next_of_nextIs (by decide), next_of_nextIs (by decide), next_of_nextIs (by decide), next_of_nextIs (by decide),
    next_of_nextIs (by decide), next_of_nextIs (by decide), next_of_nextIs (by decide), next_of_nextIs (by decide)⟩

theorem witness_StepFollowsTransitionTable : (litLast none).st.status = .busy ∧
    ∃ t, step (litLast none) = .next t ∧ true := ⟨rfl, next_of_nextIs (by decide)⟩

theorem witness_AbortIsPrecise : (litLast (some 0)).st ≠ .err ∧ ∃ t, step (litLast (some 0)) = .next t ∧ t.st == .err :=
  ⟨by decide, next_of_nextIs (by decide)⟩

/-- One abort of each kind. -/
theorem witness_AbortCausesComplete :
    (∃ t, step (started [0xEE, 0xCC, 0xBB, 0xAB]) = .next t ∧ t.st == .err && t.errCode == .invalidMagic) ∧
    (∃ t, step (midToken .lenExt 0 [0x41] []) = .next t ∧ t.st == .err && t.errCode == .truncatedInput) ∧
    (∃ t, step (midToken .dist 0 [0x41] [2, 0]) = .next t ∧ t.st == .err && t.errCode == .invalidDistance) ∧
    (∃ t, step (copyLast (some 1)) = .next t ∧ t.st == .err && t.errCode == .outputLimit) :=
  ⟨next_of_nextIs (by decide), next_of_nextIs (by decide), next_of_nextIs (by decide), next_of_nextIs (by decide)⟩

theorem witness_FinishOnlyAtPayloadEnd :
    (∃ t, step (inPayload []) = .next t ∧ t.st == .done) ∧
    (∃ t, step (midToken .lit 2 [0x41] [0x10, 0x41]) = .next t ∧ t.st == .done) :=
  ⟨next_of_nextIs (by decide), next_of_nextIs (by decide)⟩

theorem witness_LimitNeverPassed : (litLast (some 1)).maxOut = some 1 ∧ (litLast (some 1)).outLen ≤ 1 ∧
    ∃ t, step (litLast (some 1)) = .next t ∧ t.outLen == 1 := ⟨rfl, by decide, next_of_nextIs (by decide)⟩

theorem witness_StepKeepsInvariant : (inPayload [0x10, 0x41]).Inv ∧
    ∃ t, step (inPayload [0x10, 0x41]) = .next t ∧ t.st == .lit :=
  ⟨witness_inv_busy.1, next_of_nextIs (by decide)⟩

theorem witness_HostKeepsInvariant : doneState.Inv ∧ ∃ t, hostDo .start doneState = .next t ∧ t.st == .magic :=
  ⟨witness_inv_done.1, next_of_nextIs (by decide)⟩

theorem witness_NothingElseFaults : (inPayload [0x10, 0x41]).Inv := witness_inv_busy.1

theorem witness_OutputBounded : doneState.Inv ∧ ∃ t, run 5 doneState.start = .next t ∧ t.st == .done && t.outLen == 1 :=
  ⟨witness_inv_done.1, next_of_nextIs (by decide)⟩

theorem witness_MeasureDecreases : (inPayload [0x10, 0x41]).Inv ∧ (inPayload [0x10, 0x41]).st.inPayload = true ∧
    (inPayload [0x10, 0x41]).st ≠ .done ∧ ∃ t, step (inPayload [0x10, 0x41]) = .next t ∧ t.st.terminal == false :=
  ⟨witness_inv_busy.1, rfl, by decide, next_of_nextIs (by decide)⟩

theorem witness_EveryRunEnds : doneState.Inv := witness_inv_done.1

theorem witness_ResultIndependent : [(0x10 : Byte), 0x41].length < 2 ^ 32 ∧ State.reset.maxOut = doneState.maxOut := by
  decide

/-- The result of a run is a success with this output. -/
def outputIs (out : List Byte) : Option (Except ErrCode (List Byte)) → Bool
  | some (.ok o) => o == out
  | some (.error _) => false
  | none => false

/-- V30 without a limit. -/
theorem witness_LimitIsMonotone : State.reset.maxOut = none ∧
    ∃ t, run 5 (State.reset.load (container [0x10, 0x41])).start = .next t ∧
      outputIs [0x41] (result t) := ⟨rfl, next_of_nextIs (by decide)⟩

theorem witness_SuccessIsATokenSequence :
    decodeSource (container [0x20, 0x41, 0x42, 0x01, 0x00]) none = .ok [0x41, 0x42, 0x42, 0x42, 0x42, 0x42] := by decide

/-- A token whose distance is its whole output, and then a final token of no literals or none. -/
theorem witness_AssembledTokensDecode :
    (∀ t ∈ [Token.tok [0x41, 0x42] 2 4], t.wellFormed = true ∧ ∃ l d n, t = .tok l d n) ∧
    (Token.fin [] 15).wellFormed = true ∧
    (∀ pre t post, [Token.tok [0x41, 0x42] 2 4] = pre ++ t :: post →
      distanceValid (pre.foldl applyToken []) t = true) ∧
    (([Token.tok [0x41, 0x42] 2 4] ++ [Token.fin [] 15]).flatMap encodeToken).length < 2 ^ 32 ∧
    (([Token.tok [0x41, 0x42] 2 4] ++ []).flatMap encodeToken).length < 2 ^ 32 := by
  refine ⟨?_, by decide, ?_, by decide, by decide⟩
  · intro t ht
    rw [List.mem_singleton.mp ht]
    exact ⟨by decide, _, _, _, rfl⟩
  · intro pre t post h
    cases pre with
    | nil =>
      simp only [List.nil_append, List.cons.injEq] at h
      rw [← h.1]
      decide
    | cons p pre => simp at h

/-- P1, which ends after a back-reference (Scenario B), and the empty program (V7). -/
theorem test_assembled_ends :
    decodeSource (assemble { body := [.token (.tok [0x41, 0x42] 1 4)] }) none =
      .ok [0x41, 0x42, 0x42, 0x42, 0x42, 0x42] ∧
    decodeSource (assemble { body := [] }) none = .ok [] := by decide

/-- Every row, each form at the edge of its operand range. -/
theorem witness_DecodeOfEncode : (Instr.tokXX.wellFormed && Instr.tokXX.fits []) ∧
    ((Instr.tokXS 14).wellFormed && (Instr.tokXS 14).fits []) ∧ ((Instr.tokSX 14).wellFormed && (Instr.tokSX 14).fits []) ∧
    ((Instr.tokSS 14 14).wellFormed && (Instr.tokSS 14 14).fits []) ∧
    ((Instr.fin 1 15).wellFormed && (Instr.fin 1 15).fits [0x41]) ∧
    ((Instr.hdr 1 2 3).wellFormed && (Instr.hdr 1 2 3).fits []) ∧ ((Instr.lext 255).wellFormed && (Instr.lext 255).fits []) ∧
    (Instr.chainMore.wellFormed && Instr.chainMore.fits []) ∧
    ((Instr.chainLast 254).wellFormed && (Instr.chainLast 254).fits []) := by decide

theorem witness_EncodeOfDecode : decode .chain [0xFE] = .ok (.chainLast 254) ∧ decode .token [0x00] = .ok (.fin 0 0) := by
  decide

theorem witness_ParseOfEncodedToken : (Token.tok [0x5A] 1 29).wellFormed = true ∧ (Token.fin [0x41] 15).wellFormed = true := by
  decide

theorem witness_TokenSpellingUnique :
    parseToken [0x1F, 0x5A, 0x01, 0x00, 0x0A, 0x77] = .ok (.tok [0x5A] 1 29, [0x77]) := by decide

theorem witness_StepRunsDecodedInstruction :
    (started (container [])).src.slice 0 16 = some (container []) ∧
    decode .container (container []) = .ok (.hdr 0 0 0) ∧
    (inPayload [0x10, 0x41]).atPayload [0x10, 0x41] ∧
    (inPayload [0x10, 0x41]).cur + 2 = (inPayload [0x10, 0x41]).csize.toNat ∧
    decode .token [0x10, 0x41] = .ok (.fin 1 0) ∧
    (midToken .litExt 1 [] [0xF0, 5]).atPayload [5] ∧ decode .litCount [5] = .ok (.lext 5) ∧
    (midToken .lenExt 0 [0x41] [0xFF]).atPayload [0xFF] ∧ decode .chain [0xFF] = .ok .chainMore ∧
    (litLast none).litRem = (litLast none).csize.toNat - (litLast none).cur ∧
    (midToken .lit 2 [0x41] [0x10, 0x41, 1, 0]).litRem ≠ (midToken .lit 2 [0x41] [0x10, 0x41, 1, 0]).csize.toNat - 2 :=
  ⟨by decide, by decide, ⟨by decide, by decide, by decide⟩, by decide, by decide, ⟨by decide, by decide, by decide⟩,
    by decide, ⟨by decide, by decide, by decide⟩, by decide, by decide, by decide⟩

end Sys2Proof.Tests
end

namespace Sys2Proof.Machine

/-! ### What `decode` reads is what `fetch` hands to `exec` (R9, R12, R166) -/

/-- A step on a fetched instruction is the meaning of that instruction. -/
theorem step_of_fetch {s : State} {i : Instr} (h : fetch s = .instr i) : step s = exec i s := by
  simp only [step, h, runFetched]

/-- A header decodes from sixteen bytes that begin with the magic word, to the three words behind it (R71). -/
theorem decodeHeader_eq_ok {bytes : List Byte} {i : Instr} (h : decodeHeader bytes = .ok i) :
    16 ≤ bytes.length ∧ wordAt bytes 0 = magicWord ∧
      i = .hdr (wordAt bytes 4) (wordAt bytes 8) (wordAt bytes 12) := by
  unfold decodeHeader at h
  split at h
  case h_1 =>
    split at h
    case isFalse => cases h
    case isTrue hm =>
      split at h
      case h_1 => cases h; exact ⟨by simp, hm, rfl⟩
      case h_2 => cases h
  case h_2 => cases h
  case h_3 => cases h

/-- A word of a source whose bytes are known. -/
theorem srcWord_of_slice {s : State} {bytes : List Byte} {a : Nat} (hs : s.src.slice 0 s.srcLen = some bytes)
    (ha : a + 4 ≤ bytes.length) : srcWord a s = .ok (wordAt bytes a) := by
  obtain ⟨hlen, hread⟩ := Memory.slice_eq_some.mp hs
  have hbyte : ∀ k, k < bytes.length → srcByte k s = .ok (bytes.getD k 0) := by
    intro k hk
    refine srcByte_eq_ok.mpr ⟨by omega, ?_⟩
    have := hread k (by omega)
    simpa [hk] using this
  exact srcWord_eq_ok.mpr ⟨_, _, _, _, hbyte _ (by omega), hbyte _ (by omega), hbyte _ (by omega),
    hbyte _ (by omega), rfl⟩

/-- `S_MAGIC` and `S_HDR` fetch the header that the source decodes to (R101, R102). -/
theorem fetch_of_decode_container {s : State} {i : Instr} {bytes : List Byte} (hst : s.st = .magic ∨ s.st = .hdr)
    (hs : s.src.slice 0 s.srcLen = some bytes) (hd : decode .container bytes = .ok i) : fetch s = .instr i := by
  obtain ⟨h16, hmagic, rfl⟩ := decodeHeader_eq_ok hd
  have hlen : bytes.length = s.srcLen := (Memory.slice_eq_some.mp hs).1
  have hhead : headerAt s = .ok (.hdr (wordAt bytes 4) (wordAt bytes 8) (wordAt bytes 12)) := by
    simp only [headerAt, srcWord_of_slice hs (a := 4) (by omega), srcWord_of_slice hs (a := 8) (by omega),
      srcWord_of_slice hs (a := 12) (by omega)]
  rcases hst with h | h
  · have hlong : ¬ s.srcLen < magicBytes := by simp only [magicBytes]; omega
    have hfirst : srcWord 0 s = .ok magicWord := hmagic ▸ srcWord_of_slice hs (by omega)
    simp [fetch, h, fetchMagic, hlong, hfirst, hhead]
  · have hlong : ¬ s.srcLen < hdrBytes := by simp only [hdrBytes]; omega
    simp [fetch, h, fetchHdr, hlong, hhead]

/-- The byte behind the cursor, where the rest of the payload is known: its second byte, if there is one. -/
theorem payloadByte_succ_cur {s : State} {b : Byte} {rest : List Byte} (h : s.atPayload (b :: rest))
    (hend : s.cur + (b :: rest).length = s.csize.toNat) :
    (payloadByte (s.cur + 1) s).toOption = rest.head? := by
  cases rest with
  | nil =>
    have hout : ¬ s.cur + 1 < s.csize.toNat := by simp only [List.length_cons, List.length_nil] at hend; omega
    simp [payloadByte, hout, Except.toOption]
  | cons d ds =>
    have htail := (State.atPayload_append (bs := [b]) (cs := d :: ds)).mp h |>.2
    have hbyte : payloadByte (s.cur + 1) s = .ok d := State.atPayload_head htail
    simp [hbyte, Except.toOption]

/-- `S_CTRL` fetches the token form, `FIN` included, that the rest of the payload decodes to (R83, R110). -/
theorem fetch_of_decode_token {s : State} {i : Instr} {bytes : List Byte} (hst : s.st = .ctrl)
    (hp : s.atPayload bytes) (hend : s.cur + bytes.length = s.csize.toNat) (hd : decode .token bytes = .ok i) :
    fetch s = .instr i := by
  cases bytes with
  | nil => cases hd
  | cons c rest =>
    have hc := State.atPayload_head hp
    have hleft : s.csize.toNat - (s.cur + 1) = rest.length := by simp only [List.length_cons] at hend; omega
    cases hd
    simp [fetch, hst, fetchControl, payloadByte_not_exhausted hc, hc, payloadByte_succ_cur hp hend, hleft]

/-- `S_LITEXT` fetches the extension byte that the payload decodes to (R112). -/
theorem fetch_of_decode_litCount {s : State} {i : Instr} {bytes : List Byte} (hst : s.st = .litExt)
    (hp : s.atPayload bytes) (hd : decode .litCount bytes = .ok i) : fetch s = .instr i := by
  cases bytes with
  | nil => cases hd
  | cons e rest =>
    have he := State.atPayload_head hp
    cases hd
    simp [fetch, hst, fetchLitExt, payloadByte_not_exhausted he, he]

/-- `S_LENEXT` fetches the chain byte that the payload decodes to (R133). -/
theorem fetch_of_decode_chain {s : State} {i : Instr} {bytes : List Byte} (hst : s.st = .lenExt)
    (hp : s.atPayload bytes) (hd : decode .chain bytes = .ok i) : fetch s = .instr i := by
  cases bytes with
  | nil => cases hd
  | cons v rest =>
    have hv := State.atPayload_head hp
    cases hd
    simp [fetch, hst, fetchChain, payloadByte_not_exhausted hv, hv]

/-- `S_LIT` fetches the token in progress, as a `FIN` exactly where its run ends the payload (R155). -/
theorem fetch_lit {s : State} (hst : s.st = .lit) :
    fetch s = .instr (if s.litRem = s.left then .fin s.hiNib s.lb else s.token) := by
  simp only [fetch, hst, fetchLit]

/-- `S_DIST` and `S_COPY` fetch the token in progress (R150). -/
theorem fetch_dist_or_copy {s : State} (hst : s.st = .dist ∨ s.st = .copy) : fetch s = .instr s.token := by
  rcases hst with h | h <;> simp only [fetch, h]

/-- Settles O59: at each fetch position `fetch` answers what `decode` reads there, or the token in progress. -/
theorem stepRunsDecodedInstruction : Obligations.StepRunsDecodedInstruction := by
  unfold Obligations.StepRunsDecodedInstruction
  refine ⟨fun s i bytes hst hs hd => step_of_fetch (fetch_of_decode_container hst hs hd), ?_, fun s => ⟨?_, ?_, ?_⟩⟩
  · rintro s i bytes w (⟨hst, rfl⟩ | ⟨hst, rfl⟩ | ⟨hst, rfl⟩) hp hend hd
    · exact step_of_fetch (fetch_of_decode_token hst hp hend hd)
    · exact step_of_fetch (fetch_of_decode_litCount hst hp hd)
    · exact step_of_fetch (fetch_of_decode_chain hst hp hd)
  · exact fun hst hne => step_of_fetch ((fetch_lit hst).trans (congrArg _ (if_neg hne)))
  · exact fun hst heq => step_of_fetch ((fetch_lit hst).trans (congrArg _ (if_pos heq)))
  · exact fun hst => step_of_fetch (fetch_dist_or_copy hst)

end Sys2Proof.Machine

namespace Sys2Proof.Machine

/-! ### What a row of the table can do to the state -/

/-- No row writes what the host places (R22, R23, R24). -/
theorem Edge.keeps_inputs {s t : State} (e : Edge s t) :
    t.src = s.src ∧ t.srcLen = s.srcLen ∧ t.maxOut = s.maxOut := by
  cases e <;> exact ⟨rfl, rfl, rfl⟩

/-- The three things a row can do to the output: nothing, discard it with an abort (R190), or append one byte within
the limit, which only `S_LIT` and `S_COPY` do (R36). -/
theorem Edge.output_cases {s t : State} (e : Edge s t) :
    (t.out = s.out ∧ t.outLen = s.outLen) ∨
    (t.out = s.out ∧ t.outLen = 0 ∧ t.st = .err ∧ t.status = .err) ∨
    ∃ b, (s.st = .lit ∧ t.st = .lit ∨ s.st = .copy ∧ t.st = .copy) ∧ s.hasRoom 1 ∧
      t.out = s.out.write s.outLen b ∧ t.outLen = s.outLen + 1 := by
  cases e
  case litByte h _ _ b _ hm => exact .inr (.inr ⟨b, .inl ⟨h, rfl⟩, limitHit_eq_false.mp hm, rfl, rfl⟩)
  case copyByte h _ b _ hm => exact .inr (.inr ⟨b, .inr ⟨h, rfl⟩, limitHit_eq_false.mp hm, rfl, rfl⟩)
  all_goals simp

/-- What a row does to `STATUS`, `ERRCODE` and `ST` together: rest, abort, finish, or go on with the run (R27, R190,
R196). -/
theorem Edge.control_cases {s t : State} (e : Edge s t) :
    t = s ∨
    (t.st = .err ∧ t.status = .err ∧ t.errCode ≠ .none) ∨
    (s.st.status = .busy ∧ t.st = .done ∧ t.status = .doneOk ∧ t.errCode = s.errCode) ∨
    (s.st.status = .busy ∧ t.st.status = .busy ∧ t.status = s.status ∧ t.errCode = s.errCode) := by
  cases e
  case resting => exact .inl rfl
  case ctrlEnd h _ => exact .inr (.inr (.inl ⟨h ▸ rfl, rfl, rfl, rfl⟩))
  case litFinish h _ _ => exact .inr (.inr (.inl ⟨h ▸ rfl, rfl, rfl, rfl⟩))
  all_goals simp_all [Ctl.status]

/-- `ERRCODE` changes only in an abort, `STATUS` only at the end of the run (R190, R196). -/
theorem Edge.keeps_status {s t : State} (e : Edge s t) :
    (t.st ≠ .err → t.errCode = s.errCode) ∧ (t.st ≠ .err → t.st ≠ .done → t.status = s.status) := by
  obtain rfl | ⟨ht, -⟩ | ⟨-, ht, -, he⟩ | ⟨-, -, hs, he⟩ := e.control_cases
  · exact ⟨fun _ => rfl, fun _ _ => rfl⟩
  · exact ⟨fun h => absurd ht h, fun h => absurd ht h⟩
  · exact ⟨fun _ => he, fun _ h => absurd ht h⟩
  · exact ⟨fun _ => he, fun _ _ => hs⟩

/-- The only output address written is `OUT_LEN`, and only in `S_LIT` and `S_COPY` (R36, R57). -/
theorem Edge.keeps_output {s t : State} (e : Edge s t) :
    (∀ a, a ≠ s.outLen → t.out.read a = s.out.read a) ∧
    (s.st ≠ .lit → s.st ≠ .copy → t.out = s.out) ∧
    (t.st ≠ .err → s.st ≠ .lit → s.st ≠ .copy → t.outLen = s.outLen) := by
  obtain ⟨ho, hn⟩ | ⟨ho, -, ht, -⟩ | ⟨b, hst, -, ho, hn⟩ := e.output_cases
  · exact ⟨fun a _ => by rw [ho], fun _ _ => ho, fun _ _ _ => hn⟩
  · exact ⟨fun a _ => by rw [ho], fun _ _ => ho, fun h => absurd ht h⟩
  · have happends : s.st = .lit ∨ s.st = .copy := hst.imp And.left And.left
    exact ⟨fun a ha => by rw [ho, Memory.read_write_other ha], fun hl hc => absurd happends (by simp [hl, hc]),
      fun _ hl hc => absurd happends (by simp [hl, hc])⟩

/-- Each header latch is written in its one state (R28). -/
theorem Edge.keeps_latches {s t : State} (e : Edge s t) :
    (s.st ≠ .magic → t.magic = s.magic) ∧
    (s.st ≠ .hdr → t.csize = s.csize ∧ t.sizeHint = s.sizeHint ∧ t.reserved = s.reserved) := by
  cases e <;> simp_all

/-- The working registers of a token but `CUR`, by the control state that may write them (R30, R32, R33, R34). -/
theorem Edge.keeps_registers {s t : State} (e : Edge s t) :
    (s.st ≠ .ctrl → t.lb = s.lb) ∧
    (s.st ≠ .ctrl → s.st ≠ .litExt → t.lc = s.lc) ∧
    (s.st = .dist ∨ s.st = .lenExt ∨ s.st = .copy → t.litRem = s.litRem) ∧
    (s.st ≠ .dist → t.dist = s.dist) ∧
    (s.st ≠ .dist → s.st ≠ .lenExt → t.brLen = s.brLen) ∧
    (s.st = .ctrl ∨ s.st = .litExt ∨ s.st = .lit → t.copyRem = s.copyRem) := by
  cases e <;> simp_all

/-- How far a row moves the cursor, and where (R29, R162): not at all, over the one byte it reads, or over a distance. -/
theorem Edge.cur_cases {s t : State} (e : Edge s t) :
    (t.cur = s.cur ∧ (s.st = .ctrl ∨ s.st = .litExt ∨ s.st = .lenExt → s.cur = s.csize.toNat) ∧
      (s.st = .lit → t.st ≠ .lit) ∧ (s.st = .dist → s.left < 2)) ∨
    (t.cur = s.cur + 1 ∧ s.cur < s.csize.toNat ∧
      (s.st = .ctrl ∨ s.st = .litExt ∨ s.st = .lenExt ∨ s.st = .lit ∧ t.st = .lit)) ∨
    (t.cur = s.cur + 2 ∧ s.st = .dist ∧ 2 ≤ s.left) := by
  cases e
  case ctrlExt h c hc _ => exact .inr (.inl ⟨rfl, (payloadByte_eq_ok.mp hc).1, .inl h⟩)
  case ctrlLit h c hc _ => exact .inr (.inl ⟨rfl, (payloadByte_eq_ok.mp hc).1, .inl h⟩)
  case litExtByte h e he => exact .inr (.inl ⟨rfl, (payloadByte_eq_ok.mp he).1, .inr (.inl h)⟩)
  case chainMore h hb => exact .inr (.inl ⟨rfl, (payloadByte_eq_ok.mp hb).1, .inr (.inr (.inl h))⟩)
  case chainLast h v hv _ => exact .inr (.inl ⟨rfl, (payloadByte_eq_ok.mp hv).1, .inr (.inr (.inl h))⟩)
  case litByte h _ _ b hb _ =>
    exact .inr (.inl ⟨rfl, (payloadByte_eq_ok.mp hb).1, .inr (.inr (.inr ⟨h, rfl⟩))⟩)
  case distBad h hl d _ _ => exact .inr (.inr ⟨rfl, h, hl⟩)
  case distChain h hl d _ _ _ _ => exact .inr (.inr ⟨rfl, h, hl⟩)
  case distCopy h hl d _ _ _ _ => exact .inr (.inr ⟨rfl, h, hl⟩)
  case resting h => rcases h with h | h | h <;> simp [h]
  all_goals simp_all

/-- `S_COPY` consumes no payload byte (R136). -/
theorem Edge.keeps_cur_of_copy {s t : State} (e : Edge s t) (h : s.st = .copy) : t.cur = s.cur := by
  obtain ⟨hc, -⟩ | ⟨-, -, hst⟩ | ⟨-, hst, -⟩ := e.cur_cases
  · exact hc
  · simp [h] at hst
  · simp [h] at hst

/-- No row takes the output past a finite limit (R36, R184). -/
theorem Edge.outLen_le_limit {s t : State} (e : Edge s t) {m : Nat} (hm : s.maxOut = some m) (h : s.outLen ≤ m) :
    t.outLen ≤ m := by
  obtain ⟨-, hn⟩ | ⟨-, hn, -⟩ | ⟨b, -, hroom, -, hn⟩ := e.output_cases
  · omega
  · omega
  · exact hn ▸ hroom m hm

/-! ### The rules of every step -/

/-- Settles O32, row by row of R166. -/
theorem decoderNeverWritesInputs : Obligations.DecoderNeverWritesInputs :=
  fun _ _ h => (edge_of_step h).keeps_inputs

/-- Settles O33, row by row of R166. -/
theorem headerLatchesHeld : Obligations.HeaderLatchesHeld :=
  fun _ _ h => (edge_of_step h).keeps_latches

/-- Settles O34: of the three things a step can do to the output only the append writes, at `OUT_LEN`, and only an
abort shortens it. -/
theorem outputOnlyGrows : Obligations.OutputOnlyGrows := by
  unfold Obligations.OutputOnlyGrows
  intro s t h
  have e := edge_of_step h
  refine ⟨e.keeps_output.1, ?_⟩
  obtain ⟨-, hn⟩ | ⟨-, hn, -, hs⟩ | ⟨b, hst, -, -, hn⟩ := e.output_cases
  · exact ⟨fun _ => by omega, fun _ => by omega⟩
  · exact ⟨fun hne => absurd hs hne, fun _ => by omega⟩
  · exact ⟨fun _ => by omega, fun _ => hst.imp And.left And.left⟩

/-- Settles O35: the step reads nothing, one byte or a distance, and the cursor passes what it has read. -/
theorem cursorOnlyAdvances : Obligations.CursorOnlyAdvances := by
  unfold Obligations.CursorOnlyAdvances
  intro s t h
  obtain ⟨hc, h1, h2, h3⟩ | ⟨hc, hlt, hst⟩ | ⟨hc, hst, hl⟩ := (edge_of_step h).cur_cases
  · simp_all [State.left]
  · have hne : s.cur ≠ s.csize.toNat := by omega
    rcases hst with hst | hst | hst | ⟨hst, hst'⟩ <;> simp_all
  · have hnot : ¬ s.csize.toNat - s.cur < 2 := Nat.not_lt.mpr hl
    simp [hc, hst, hnot]

/-- Settles O40: an append has passed the limit test, and nothing else lengthens the output. -/
theorem limitNeverPassed : Obligations.LimitNeverPassed :=
  fun _ _ _ hm h hstep => (edge_of_step hstep).outLen_le_limit hm h

/-! ### Frames of the instructions -/

/-- The three ends of the `S_CTRL` rule (R110), whatever the nibbles. -/
theorem ctrlStep_cases (hi lo : Nibble) (s : State) :
    ctrlStep hi lo s = s.finish ∨
    ctrlStep hi lo s = { s with cur := s.cur + 1, lc := hi.toNat, lb := lo, st := .litExt } ∨
    ctrlStep hi lo s = { s with cur := s.cur + 1, lc := hi.toNat, lb := lo, litRem := hi.toNat, st := .lit } := by
  unfold ctrlStep
  split
  · exact .inl rfl
  · split
    · exact .inr (.inl rfl)
    · exact .inr (.inr rfl)

/-- The two ends of the `S_LITEXT` rule (R112). -/
theorem litExtStep_cases (e : Byte) (s : State) :
    litExtStep e s = s.raise .truncatedInput ∨
    litExtStep e s =
      { s with cur := s.cur + 1, lc := litEsc.toNat + e.toNat, litRem := litEsc.toNat + e.toNat, st := .lit } := by
  unfold litExtStep
  split
  · exact .inl rfl
  · exact .inr rfl

/-- The three ends of the `S_LENEXT` rule (R133). -/
theorem chainStep_cases (v : Byte) (s : State) :
    chainStep v s = s.raise .truncatedInput ∨
    (v = chainCont ∧ chainStep v s = { s with cur := s.cur + 1, brLen := s.brLen + v.toNat, st := .lenExt }) ∨
    (v ≠ chainCont ∧ chainStep v s =
      { s with cur := s.cur + 1, brLen := s.brLen + v.toNat, copyRem := s.brLen + v.toNat, st := .copy }) := by
  unfold chainStep
  split
  · exact .inl rfl
  · split
    · exact .inr (.inl ⟨‹_›, rfl⟩)
    · exact .inr (.inr ⟨‹_›, rfl⟩)

/-- The three ends of the `S_MAGIC` rule (R101). -/
theorem magicStep_cases (w : Word) (s : State) :
    magicStep w s = s.raise .truncatedInput ∨ magicStep w s = State.raise .invalidMagic { s with magic := w } ∨
    magicStep w s = { s with magic := w, st := .hdr } := by
  unfold magicStep
  split
  · exact .inl rfl
  · dsimp only
    split
    · exact .inr (.inl rfl)
    · exact .inr (.inr rfl)

/-- The three ends of the `S_HDR` rule (R102). -/
theorem headerStep_cases (c n r : Word) (s : State) :
    headerStep c n r s = s.raise .truncatedInput ∨
    headerStep c n r s = State.raise .truncatedInput { s with csize := c, sizeHint := n, reserved := r } ∨
    headerStep c n r s = { s with csize := c, sizeHint := n, reserved := r, st := .ctrl } := by
  unfold headerStep
  split
  · exact .inl rfl
  · dsimp only
    split
    · exact .inr (.inl rfl)
    · exact .inr (.inr rfl)

/-- Where `HDR` has a step, and which. -/
theorem exec_hdr_cases {c n r : Word} {s t : State} (h : exec (.hdr c n r) s = .next t) :
    (s.st = .magic ∧ t = magicStep magicWord s) ∨ (s.st = .hdr ∧ t = headerStep c n r s) := by
  simp only [exec, execHdr] at h
  split at h
  · cases h; exact .inl ⟨‹_›, rfl⟩
  · cases h; exact .inr ⟨‹_›, rfl⟩
  · cases h

/-- Where `LEXT` and the chain bytes have a step, and which. -/
theorem exec_extension_cases {i : Instr} {s t : State} (hi : i.site = .litCount ∨ i.site = .chain)
    (h : exec i s = .next t) :
    (i.site = .litCount ∧ ∃ e, t = litExtStep e s) ∨
    (i.site = .chain ∧ ∃ v, t = chainStep v s ∧ (i = .chainMore → v = chainCont)) := by
  cases i
  case lext e =>
    simp only [exec, execLext] at h
    split at h
    · cases h; exact .inl ⟨rfl, e, rfl⟩
    · cases h
  case chainMore =>
    simp only [exec, execChainMore] at h
    split at h
    · cases h; exact .inr ⟨rfl, chainCont, rfl, fun _ => rfl⟩
    · cases h
  case chainLast v =>
    simp only [exec, execChainLast] at h
    split at h
    · cases h; exact .inr ⟨rfl, v, rfl, by simp⟩
    · cases h
  all_goals simp [Instr.site] at hi

/-- A token instruction runs the `S_CTRL` rule with nibbles of its own, or a row of the table. -/
theorem exec_token_edge {i : Instr} {s t : State} (hi : i.site = .token) (h : exec i s = .next t) :
    (s.st = .ctrl ∧ ∃ hn ln, t = ctrlStep hn ln s) ∨
    (s.st ≠ .magic ∧ s.st ≠ .hdr ∧ s.st ≠ .ctrl ∧ Edge s t) := by
  obtain hc | ⟨hst, ht⟩ | ⟨hst, ht⟩ | ⟨hst, ht⟩ | ⟨hst, ht⟩ | ⟨hst, ht⟩ := exec_token_cases hi h
  · exact .inl hc
  · exact .inr (by simp [hst, litExtFetch_edge hst ht])
  · exact .inr (by simp [hst, litStep_edge hst ht])
  · exact .inr (by simp [hst, distStep_edge hst ht])
  · exact .inr (by simp [hst, chainFetch_edge hst ht])
  · exact .inr (by simp [hst, copyStep_edge hst ht])

/-- Settles O29: the `S_CTRL` rule writes registers only; every other step of a token is a row of the table. -/
theorem tokenFrame : Obligations.TokenFrame := by
  unfold Obligations.TokenFrame
  intro i s t hi h
  obtain ⟨hst, hn, ln, rfl⟩ | ⟨hm, hh, hc, e⟩ := exec_token_edge hi h
  · obtain ht | ht | ht := ctrlStep_cases hn ln s <;> simp [ht, hst]
  · obtain ⟨hsrc, hlen, hmax⟩ := e.keeps_inputs
    obtain ⟨hmagic, hlatches⟩ := e.keeps_latches
    obtain ⟨hcsize, hhint, hres⟩ := hlatches hh
    obtain ⟨hread, hout, houtLen⟩ := e.keeps_output
    obtain ⟨hlb, hlc, hlit, hdist, hbr, hcopy⟩ := e.keeps_registers
    obtain ⟨herr, hstatus⟩ := e.keeps_status
    exact ⟨hsrc, hlen, hmax, hmagic hm, hcsize, hhint, hres, hread, hout, hlb, hlc, hlit, hdist, hbr, hcopy,
      e.keeps_cur_of_copy, houtLen, herr, hstatus⟩

/-- Settles O30: both rules of `HDR` write latches and `ST`, or abort. -/
theorem hdrFrame : Obligations.HdrFrame := by
  unfold Obligations.HdrFrame
  intro c n r s t h
  obtain ⟨hst, rfl⟩ | ⟨hst, rfl⟩ := exec_hdr_cases h
  · obtain ht | ht | ht := magicStep_cases magicWord s <;> simp [ht, hst]
  · obtain ht | ht | ht := headerStep_cases c n r s <;> simp [ht, hst]

/-- Settles O31: the rules of `S_LITEXT` and `S_LENEXT` write registers only, or abort. -/
theorem extensionFrame : Obligations.ExtensionFrame := by
  unfold Obligations.ExtensionFrame
  intro i s t hi h
  obtain ⟨hsite, e, rfl⟩ | ⟨hsite, v, rfl, hmore⟩ := exec_extension_cases hi h
  · have hne : i ≠ .chainMore := by rintro rfl; cases hsite
    obtain ht | ht := litExtStep_cases e s <;> simp [ht, hsite, hne]
  · obtain ht | ⟨-, ht⟩ | ⟨hv, ht⟩ := chainStep_cases v s
    · simp [ht, hsite]
    · simp [ht, hsite]
    · have hne : i ≠ .chainMore := fun hi => hv (hmore hi)
      simp [ht, hsite, hne]

/-! ### The invariant, clause by clause -/

/-- A distance fits into what is left of the payload (R130). -/
theorem two_le_left {s : State} : 2 ≤ s.left ↔ s.cur + 2 ≤ s.csize.toNat := by
  simp only [State.left]
  omega

/-- The clauses `srcWf`, `outWf`, `loaded` and `written`: the source is not written, the output only by an append. -/
theorem Edge.keeps_memories {s t : State} (e : Edge s t) (h : s.Inv) :
    t.src.wf ∧ t.out.wf ∧ (∀ a, a < t.srcLen → (t.src.read a).isSome) ∧
      ∀ a, a < t.outLen → (t.out.read a).isSome := by
  obtain ⟨hsrc, hlen, -⟩ := e.keeps_inputs
  suffices hout : t.out.wf ∧ ∀ a, a < t.outLen → (t.out.read a).isSome from
    ⟨hsrc ▸ h.srcWf, hout.1, hsrc ▸ hlen ▸ h.loaded, hout.2⟩
  obtain ⟨ho, hn⟩ | ⟨ho, hn, -⟩ | ⟨b, -, -, ho, hn⟩ := e.output_cases
  · exact ho ▸ hn ▸ ⟨h.outWf, h.written⟩
  · exact ⟨ho ▸ h.outWf, by simp [hn]⟩
  · refine ⟨ho ▸ Memory.write_wf _ _ h.outWf, fun a ha => ?_⟩
    rw [ho, Memory.read_write]
    split
    · rfl
    · exact h.written a (by omega)

theorem Ctl.ne_err_of_busy {c : Ctl} (h : c.status = .busy) : c ≠ .err := by
  rintro rfl
  cases h

/-- The clauses `statusOf` and `errCodeOf` (R27, R216). -/
theorem Edge.keeps_control {s t : State} (e : Edge s t) (h : s.Inv) :
    t.status = t.st.status ∧ (t.errCode ≠ .none ↔ t.st = .err) := by
  obtain rfl | ⟨ht, hs, he⟩ | ⟨hb, ht, hs, he⟩ | ⟨hb, hb', hs, he⟩ := e.control_cases
  · exact ⟨h.statusOf, h.errCodeOf⟩
  · simp [ht, hs, he, Ctl.status]
  · simp [ht, hs, he, Ctl.status, h.errCodeOf, Ctl.ne_err_of_busy hb]
  · simp [hs, he, h.statusOf, hb, hb', h.errCodeOf, Ctl.ne_err_of_busy hb, Ctl.ne_err_of_busy hb']

/-- The clause `limited` (R42): the limit is passed by no append, and only a step of a run can make one. -/
theorem Edge.keeps_limited {s t : State} (e : Edge s t) (h : s.Inv) (hb : t.st.status = .busy) :
    t.outLen ≤ t.maxOut.getD t.outLen := by
  have hsb : s.st.status = .busy := by
    obtain rfl | ⟨ht, -⟩ | ⟨-, ht, -⟩ | ⟨hsb, -⟩ := e.control_cases
    · exact hb
    · simp [ht, Ctl.status] at hb
    · simp [ht, Ctl.status] at hb
    · exact hsb
  obtain ⟨-, -, hmax⟩ := e.keeps_inputs
  rw [hmax]
  cases hm : s.maxOut with
  | none => exact Nat.le_refl _
  | some m =>
    have hle : s.outLen ≤ m := by simpa [hm] using h.limited hsb
    exact e.outLen_le_limit hm hle

/-- The clause `emptyOut`: outside the payload there is no output (R190, R213). -/
theorem Edge.keeps_emptyOut {s t : State} (e : Edge s t) (h : s.Inv) (hp : t.st.inPayload = false) : t.outLen = 0 := by
  have := h.emptyOut
  cases e
  case resting => exact this hp
  case magicRight hst _ _ => exact this (by simp [hst, Ctl.inPayload])
  all_goals simp [Ctl.inPayload] at hp ⊢

/-- The clauses `curZero` and `magicOk`: `S_HDR` is entered from `S_MAGIC` alone, the payload from `S_HDR` (R101,
R102). -/
theorem Edge.keeps_start {s t : State} (e : Edge s t) (h : s.Inv) :
    (t.st = .magic ∨ t.st = .hdr → t.cur = 0) ∧ (t.st = .hdr ∨ t.st.inPayload = true → t.magic = magicWord) := by
  have hcur := h.curZero
  have hmagic := h.magicOk
  cases e
  case resting => exact ⟨hcur, hmagic⟩
  all_goals simp_all [Ctl.inPayload]

/-- The clauses `payloadFits`, `cursorFits` and `doneAtEnd` (R42, R196): the header test places the payload in the source,
and a byte or a distance that has been read lies in the payload. -/
theorem Edge.keeps_payload {s t : State} (e : Edge s t) (h : s.Inv) :
    (t.st.inPayload = true → t.st ≠ .done → hdrBytes + t.csize.toNat ≤ t.srcLen) ∧
    (t.st.inPayload = true → t.cur ≤ t.csize.toNat) ∧
    (t.st = .done → t.cur = t.csize.toNat) := by
  have hfits := h.payloadFits
  have hcur := h.cursorFits
  cases e
  case resting => exact ⟨hfits, hcur, h.doneAtEnd⟩
  case hdrPass hst hl c n r _ _ _ hs =>
    have hlen : 16 + c.toNat ≤ s.srcLen := by omega
    simp [h.curZero (.inr hst), hdrBytes, hlen]
  all_goals simp_all [Ctl.inPayload, payloadByte_eq_ok, two_le_left]

/-- The clauses about the token in progress: `extended`, `counts`, `distanceOk`, `chained` and `copyOk`. -/
theorem Edge.keeps_token {s t : State} (e : Edge s t) (h : s.Inv) :
    (t.st = .litExt → t.lc = litEsc.toNat) ∧ (t.lc ≤ 270 ∧ t.litRem ≤ 270) ∧
    (t.st = .lenExt ∨ t.st = .copy → 1 ≤ t.dist.toNat ∧ t.dist.toNat ≤ t.outLen) ∧
    (t.st = .lenExt → t.lb = lenEsc ∧ 19 ≤ t.brLen) ∧
    (t.st = .copy → t.copyRem ≤ t.brLen ∧ 4 ≤ t.brLen) := by
  have hcounts := h.counts
  have hdist := h.distanceOk
  have hchain := h.chained
  have hcopy := h.copyOk
  cases e
  case resting => exact ⟨h.extended, hcounts, hdist, hchain, hcopy⟩
  case ctrlLit c _ _ =>
    have hn : (hiNibble c).toNat ≤ 270 := by have := (hiNibble c).isLt; omega
    simp [hn]
  case litExtByte c _ =>
    have hn : litEsc.toNat + c.toNat ≤ 270 := Nat.add_le_add_left (Nat.le_of_lt_succ c.isLt) 15
    simp [hn]
  case litByte =>
    have hn : s.litRem - 1 ≤ 270 := by omega
    simp [hn, hcounts]
  case chainMore hst _ =>
    obtain ⟨hlb, hlen⟩ := hchain hst
    exact ⟨nofun, hcounts, fun _ => hdist (.inl hst), fun _ => ⟨hlb, Nat.le_add_right_of_le hlen⟩, nofun⟩
  case chainLast hst v _ _ =>
    obtain ⟨-, hlen⟩ := hchain hst
    have h4 : 4 ≤ s.brLen + v.toNat := by omega
    exact ⟨nofun, hcounts, fun _ => hdist (.inl hst), nofun, fun _ => ⟨Nat.le_refl _, h4⟩⟩
  case copyByte hst _ _ _ _ =>
    obtain ⟨h1, hle⟩ := hdist (.inr hst)
    obtain ⟨hrem, h4⟩ := hcopy hst
    exact ⟨nofun, hcounts, fun _ => ⟨h1, Nat.le_succ_of_le hle⟩, nofun,
      fun _ => ⟨Nat.le_trans (Nat.sub_le _ 1) hrem, h4⟩⟩
  all_goals simp_all [minMatch, lenEsc, litEsc]

/-- A control byte pays for the back-reference length it asks for before any chain (R163). -/
theorem minMatch_add_nibble_le (n : Nibble) : minMatch + n.toNat ≤ 255 := by
  have := n.isLt
  simp only [minMatch]
  omega

/-- The clause `bounded`: every byte of the payload pays for at most 255 bytes of output (R163). -/
theorem Edge.keeps_bounded {s t : State} (e : Edge s t) (h : s.Inv) (hp : t.st.inPayload = true) :
    t.outLen + t.owed ≤ 255 * t.cur := by
  have hb := h.bounded
  cases e
  case resting => exact hb hp
  case hdrPass hst _ c n r _ _ _ _ => simp [State.owed, h.emptyOut (by simp [hst, Ctl.inPayload])]
  case ctrlExt hst c _ _ =>
    have hold := hb (by simp [hst, Ctl.inPayload])
    have hpay := minMatch_add_nibble_le (loNibble c)
    show s.outLen + (minMatch + (loNibble c).toNat) ≤ 255 * (s.cur + 1)
    omega
  case ctrlLit hst c _ _ =>
    have hold := hb (by simp [hst, Ctl.inPayload])
    have hpay := minMatch_add_nibble_le (loNibble c)
    show s.outLen + (minMatch + (loNibble c).toNat) ≤ 255 * (s.cur + 1)
    omega
  case chainMore hst _ =>
    have hold : s.outLen + s.brLen ≤ 255 * s.cur := by simpa [hst, Ctl.inPayload, State.owed] using hb
    show s.outLen + (s.brLen + 255) ≤ 255 * (s.cur + 1)
    omega
  case chainLast hst v _ _ =>
    have hold : s.outLen + s.brLen ≤ 255 * s.cur := by simpa [hst, Ctl.inPayload, State.owed] using hb
    have hpay := v.isLt
    show s.outLen + (s.brLen + v.toNat) ≤ 255 * (s.cur + 1)
    omega
  -- the other rows append what was owed, or owe and append nothing more
  all_goals simp_all [Ctl.inPayload, State.owed]
  all_goals omega

/-- The lengths a row writes are what the new state owes to the output (R130, R133, R136). -/
theorem Edge.length_cases {s t : State} (e : Edge s t) :
    (t.brLen = s.brLen ∨ t.st.inPayload = true ∧ t.brLen = t.owed) ∧
    (t.copyRem ≤ s.copyRem ∨ t.st.inPayload = true ∧ t.copyRem = t.owed) := by
  cases e <;> simp [Ctl.inPayload, State.owed]

/-- The clause `widths` (R29 to R35): the counts are at most 270, the cursor lies in the payload, and what is appended or
owed is at most 255 times the cursor. -/
theorem Edge.keeps_widths {s t : State} (e : Edge s t) (h : s.Inv) :
    t.cur < 2 ^ Config.curBits ∧ t.lc < 2 ^ Config.countBits ∧ t.litRem < 2 ^ Config.countBits ∧
      t.brLen < 2 ^ Config.lengthBits ∧ t.copyRem < 2 ^ Config.lengthBits ∧ t.outLen < 2 ^ Config.lengthBits := by
  obtain ⟨hcur, -, -, hbr, hcopy, -⟩ := h.widths
  obtain ⟨-, ⟨hlc, hlit⟩, -⟩ := e.keeps_token h
  obtain ⟨hbrCases, hcopyCases⟩ := e.length_cases
  have hsize := s.csize.isLt
  have hsum : t.st.inPayload = true → t.outLen + t.owed < 2 ^ 40 := by
    intro hp
    obtain ⟨-, hcursor, -⟩ := e.keeps_payload h
    have hle := hcursor hp
    have hb := e.keeps_bounded h hp
    have := t.csize.isLt
    omega
  have hout : t.outLen < 2 ^ 40 := by
    cases hp : t.st.inPayload with
    | true => have := hsum hp; omega
    | false => rw [e.keeps_emptyOut h hp]; decide
  simp only [Config.curBits, Config.countBits, Config.lengthBits] at *
  refine ⟨?_, by omega, by omega, ?_, ?_, hout⟩
  · obtain ⟨hc, -⟩ | ⟨hc, hlt, -⟩ | ⟨hc, -, hl⟩ := e.cur_cases
    · omega
    · omega
    · have := two_le_left.mp hl; omega
  · obtain heq | ⟨hp, heq⟩ := hbrCases
    · omega
    · have := hsum hp; omega
  · obtain hle | ⟨hp, heq⟩ := hcopyCases
    · omega
    · have := hsum hp; omega

/-- Settles O42: every row of the table keeps each clause. -/
theorem stepKeepsInvariant : Obligations.StepKeepsInvariant := by
  unfold Obligations.StepKeepsInvariant
  intro s t h hstep
  have e := edge_of_step hstep
  obtain ⟨hsrcWf, houtWf, hloaded, hwritten⟩ := e.keeps_memories h
  obtain ⟨hstatus, herrCode⟩ := e.keeps_control h
  obtain ⟨hcurZero, hmagic⟩ := e.keeps_start h
  obtain ⟨hfits, hcursor, hdone⟩ := e.keeps_payload h
  obtain ⟨hext, hcounts, hdist, hchain, hcopy⟩ := e.keeps_token h
  exact {
    srcWf := hsrcWf, outWf := houtWf, loaded := hloaded, written := hwritten
    statusOf := hstatus, errCodeOf := herrCode, emptyOut := e.keeps_emptyOut h
    curZero := hcurZero, magicOk := hmagic
    payloadFits := hfits, cursorFits := hcursor, doneAtEnd := hdone
    extended := hext, counts := hcounts, distanceOk := hdist, chained := hchain, copyOk := hcopy
    bounded := e.keeps_bounded h, limited := e.keeps_limited h, widths := e.keeps_widths h }

/-- Settles O41: the memories are empty and every register is 0. -/
theorem resetMeetsInvariant : Obligations.ResetMeetsInvariant := by
  unfold Obligations.ResetMeetsInvariant
  constructor <;> decide

/-! ### The host's reads and commands -/

/-- What R40 defines only after a success is readable then and refused in every other status. -/
theorem whenDone_eq (v : Nat) (s : State) :
    whenDone v s = if s.status = .doneOk then .ok v else .error .hostReadNotDefined := by
  unfold whenDone
  cases s.status <;> rfl

/-- After a success the host reads the output byte that is written (R40, R224). -/
theorem hostReadOut_of_read {s : State} {a : Nat} {b : Byte} (hs : s.status = .doneOk) (ha : a < s.outLen)
    (hb : s.out.read a = some b) : hostReadOut a s = .ok b := by
  simp [hostReadOut, hs, ha, hb]

/-- Without a success, or at or above `OUT_LEN`, the host reads no output byte. -/
theorem hostReadOut_refused {s : State} {a : Nat} (h : s.status ≠ .doneOk ∨ s.outLen ≤ a) :
    hostReadOut a s = .error .hostReadNotDefined := by
  have hnot : ¬ (s.status = .doneOk ∧ a < s.outLen) := fun ⟨hs, ha⟩ => h.elim (· hs) (Nat.not_le.mpr ha)
  simp [hostReadOut, hnot]

/-- Every command but a reset is accepted exactly while no run is in progress (R216, R217). -/
theorem hostDo_accepted_iff {c : HostCmd} {s : State} (hc : c ≠ .reset) :
    (∃ t, hostDo c s = .next t) ↔ s.status ≠ .busy := by
  cases c with
  | reset => exact absurd rfl hc
  | load bytes => by_cases hb : s.status = .busy <;> simp [hostDo, hb]
  | setLimit m => by_cases hb : s.status = .busy <;> simp [hostDo, hb]
  | start => by_cases hb : s.status = .busy <;> simp [hostDo, hb]

theorem Ctl.eq_err_of_status {c : Ctl} (h : c.status = .err) : c = .err := by
  cases c <;> simp [Ctl.status] at h ⊢

/-- After an abort there is no output (R190). -/
theorem State.Inv.outLen_of_err {s : State} (h : s.Inv) (hs : s.status = .err) : s.outLen = 0 := by
  have hst : s.st = .err := Ctl.eq_err_of_status (h.statusOf.symm.trans hs)
  exact h.emptyOut (by rw [hst]; rfl)

/-- Settles O5: the registers by `whenDone_eq`, `OUT` by the invariant's clause `written`. -/
theorem hostSeesOnlyWhatIsDefined : Obligations.HostSeesOnlyWhatIsDefined := by
  unfold Obligations.HostSeesOnlyWhatIsDefined
  intro s h
  refine ⟨⟨rfl, rfl⟩, fun hs => ?_, fun hs => ?_, fun _ a ha => hostReadOut_refused (.inr ha),
    fun hs a => hostReadOut_refused (.inl hs), fun hs r hr => ?_, fun hs => ?_, fun r hr => ?_, fun r hr => ?_,
    fun c hc => hostDo_accepted_iff hc⟩
  · have hout : ∀ a, a < s.outLen → ∃ b, hostReadOut a s = .ok b ∧ s.out.read a = some b := by
      intro a ha
      obtain ⟨b, hb⟩ := Option.isSome_iff_exists.mp (h.written a ha)
      exact ⟨b, hostReadOut_of_read hs ha hb, hb⟩
    simpa [hostRead, whenDone_eq, hs] using hout
  · simp [hostRead, hs, h.outLen_of_err hs]
  · rcases hr with rfl | rfl | rfl | rfl <;> simp [hostRead, whenDone_eq, hs]
  · rcases hs with hs | hs <;> simp [hostRead, whenDone_eq, hs]
  · rcases hr with rfl | rfl <;> rfl
  · rcases hr with rfl | rfl | rfl | rfl | rfl | rfl | rfl | rfl <;> rfl

/-! ### A run under a limit follows the run without one -/

/-- The same state with a finite `MAX_OUT`. -/
def State.withLimit (m : Nat) (s : State) : State := { s with maxOut := some m }

@[simp] theorem State.withLimit_limitHit (m : Nat) (s : State) :
    (s.withLimit m).limitHit = decide (m ≤ s.outLen) := rfl

/-- A row taken without a limit is taken with one, but for an append at the limit, which becomes the abort of R184. -/
theorem Edge.withLimit {s t : State} (e : Edge s t) (hn : s.maxOut = none) (m : Nat) :
    Edge (s.withLimit m) (t.withLimit m) ∨
    (m ≤ s.outLen ∧ t.outLen = s.outLen + 1 ∧ Edge (s.withLimit m) ((s.withLimit m).raise .outputLimit)) := by
  have hno : s.limitHit ≠ true := by simp [State.limitHit, hn]
  cases e with
  | litLimit _ _ _ _ _ hm => exact absurd hm hno
  | copyLimit _ _ _ _ hm => exact absurd hm hno
  | litByte h hl hp b hb _ =>
    by_cases hm : m ≤ s.outLen
    · exact .inr ⟨hm, rfl, .litLimit h hl hp b hb (by simp [hm])⟩
    · exact .inl (litByte (s := s.withLimit m) h hl hp b hb (by simp [hm]))
  | copyByte h hp b hb _ =>
    by_cases hm : m ≤ s.outLen
    · exact .inr ⟨hm, rfl, .copyLimit h hp b hb (by simp [hm])⟩
    · exact .inl (copyByte (s := s.withLimit m) h hp b hb (by simp [hm]))
  | resting h => exact .inl (resting (s := s.withLimit m) h)
  | magicShort h hl => exact .inl (magicShort (s := s.withLimit m) h hl)
  | magicWrong h hl w hw hm => exact .inl (magicWrong (s := s.withLimit m) h hl w hw hm)
  | magicRight h hl hw => exact .inl (magicRight (s := s.withLimit m) h hl hw)
  | hdrShort h hl => exact .inl (hdrShort (s := s.withLimit m) h hl)
  | hdrCut h hl c n r hc hn hr hs => exact .inl (hdrCut (s := s.withLimit m) h hl c n r hc hn hr hs)
  | hdrPass h hl c n r hc hn hr hs => exact .inl (hdrPass (s := s.withLimit m) h hl c n r hc hn hr hs)
  | ctrlEnd h he => exact .inl (ctrlEnd (s := s.withLimit m) h he)
  | ctrlExt h c hc hx => exact .inl (ctrlExt (s := s.withLimit m) h c hc hx)
  | ctrlLit h c hc hx => exact .inl (ctrlLit (s := s.withLimit m) h c hc hx)
  | litExtEnd h he => exact .inl (litExtEnd (s := s.withLimit m) h he)
  | litExtByte h e hb => exact .inl (litExtByte (s := s.withLimit m) h e hb)
  | litLong h hl => exact .inl (litLong (s := s.withLimit m) h hl)
  | litFinish h hz he => exact .inl (litFinish (s := s.withLimit m) h hz he)
  | litNext h hz he => exact .inl (litNext (s := s.withLimit m) h hz he)
  | distShort h hl => exact .inl (distShort (s := s.withLimit m) h hl)
  | distBad h hl d hd hb => exact .inl (distBad (s := s.withLimit m) h hl d hd hb)
  | distChain h hl d hd h1 h2 hx => exact .inl (distChain (s := s.withLimit m) h hl d hd h1 h2 hx)
  | distCopy h hl d hd h1 h2 hx => exact .inl (distCopy (s := s.withLimit m) h hl d hd h1 h2 hx)
  | chainEnd h he => exact .inl (chainEnd (s := s.withLimit m) h he)
  | chainMore h hb => exact .inl (chainMore (s := s.withLimit m) h hb)
  | chainLast h v hb hv => exact .inl (chainLast (s := s.withLimit m) h v hb hv)
  | copyEnd h hz => exact .inl (copyEnd (s := s.withLimit m) h hz)

/-- The first step of a run that has a next state. -/
theorem run_succ_eq_next {n : Nat} {s t : State} (h : run (n + 1) s = .next t) :
    ∃ u, Edge s u ∧ run n u = .next t := by
  cases hs : step s with
  | next u => exact ⟨u, edge_of_step hs, by rwa [run_succ n hs] at h⟩
  | fault f => simp [run, hs] at h
  | refused r => simp [run, hs] at h

/-- In a run that succeeds the output never shrinks: only an abort discards it, and an abort is the end (R43, R192). -/
theorem outLen_le_of_run_done {n : Nat} {s t : State} (h : run n s = .next t) (hd : t.status = .doneOk) :
    s.outLen ≤ t.outLen := by
  induction n generalizing s with
  | zero => cases h; exact Nat.le_refl _
  | succ n ih =>
    obtain ⟨u, e, hu⟩ := run_succ_eq_next h
    obtain ⟨-, hlen⟩ | ⟨-, -, hst, hstatus⟩ | ⟨b, -, -, -, hlen⟩ := e.output_cases
    · exact hlen ▸ ih hu
    · rw [run_resting (.inr (.inr hst))] at hu
      cases hu
      simp [hd] at hstatus
    · have := ih hu
      omega

/-- A run that succeeds without a limit succeeds alike under a limit that its output meets, and under a lower one ends
with the abort of R184. -/
theorem run_withLimit {m n : Nat} {s t : State} (hn : s.maxOut = none) (hle : s.outLen ≤ m)
    (h : run n s = .next t) (hd : t.status = .doneOk) :
    (t.outLen ≤ m ∧ run n (s.withLimit m) = .next (t.withLimit m)) ∨
    (m < t.outLen ∧ ∃ k u, run k (s.withLimit m) = .next (State.raise .outputLimit u)) := by
  induction n generalizing s with
  | zero => cases h; exact .inl ⟨hle, rfl⟩
  | succ n ih =>
    obtain ⟨u, e, hu⟩ := run_succ_eq_next h
    obtain e' | ⟨hm, hlen, e'⟩ := e.withLimit hn m
    · have hrun : ∀ k, run (k + 1) (s.withLimit m) = run k (u.withLimit m) := fun k => run_succ k (step_of_edge e')
      obtain ⟨-, -, hmax⟩ := e.keeps_inputs
      obtain ⟨ht, hr⟩ | ⟨ht, k, v, hr⟩ := ih (hmax.trans hn) (e'.outLen_le_limit rfl hle) hu
      · exact .inl ⟨ht, (hrun n).trans hr⟩
      · exact .inr ⟨ht, k + 1, v, (hrun k).trans hr⟩
    · have := outLen_le_of_run_done hu hd
      exact .inr ⟨by omega, 1, s.withLimit m, run_succ 0 (step_of_edge e')⟩

/-- A success is a status and an output that can be read whole (R197). -/
theorem result_eq_ok {t : State} {out : List Byte} :
    result t = some (.ok out) ↔ t.status = .doneOk ∧ t.output = some out := by
  unfold result State.output
  cases t.status <;> simp

/-- An abort is the error it names (R197). -/
@[simp] theorem result_raise (k : ErrCode) (s : State) : result (s.raise k) = some (.error k) := rfl

/-- Settles O50, by induction on the run. -/
theorem limitIsMonotone : Obligations.LimitIsMonotone := by
  unfold Obligations.LimitIsMonotone
  intro s bytes out n m t hn h hres
  obtain ⟨hd, hout⟩ := result_eq_ok.mp hres
  have hlen : out.length = t.outLen := (Memory.slice_eq_some.mp hout).1
  obtain ⟨hle, hrun⟩ | ⟨hlt, k, u, hrun⟩ := run_withLimit (s := (s.load bytes).start) hn (Nat.zero_le m) h hd
  · exact ⟨n, t.withLimit m, hrun, by rw [if_pos (by omega)]; exact hres⟩
  · exact ⟨k, u.raise .outputLimit, hrun, by rw [if_neg (by omega), result_raise]⟩

end Sys2Proof.Machine

namespace Sys2Proof.Machine

/-! ### Instructions: decoding what is encoded, and back (R71, R81 to R83) -/

theorem bytes32_le32 (b0 b1 b2 b3 : Byte) : bytes32 (le32 b0 b1 b2 b3) = [b0, b1, b2, b3] := by
  have hbyte : ∀ (k : Nat) (b : Byte), (le32 b0 b1 b2 b3).toNat / 256 ^ k % 256 = b.toNat →
      byteOf (le32 b0 b1 b2 b3).toNat k = b :=
    fun k b hb => BitVec.eq_of_toNat_eq ((byteOf_toNat _ k).trans hb)
  have := b0.isLt
  have := b1.isLt
  have := b2.isLt
  have := b3.isLt
  have hw := le32_toNat b0 b1 b2 b3
  rw [bytes32, hbyte 0 b0 (by omega), hbyte 1 b1 (by omega), hbyte 2 b2 (by omega), hbyte 3 b3 (by omega)]

/-- The word at an offset spells the four bytes that stand there (R50). -/
theorem bytes32_wordAt_append_drop {bytes : List Byte} {a : Nat} (h : a + 4 ≤ bytes.length) :
    bytes32 (wordAt bytes a) ++ bytes.drop (a + 4) = bytes.drop a := by
  have hget : ∀ k, k < bytes.length → bytes.drop k = bytes.getD k 0 :: bytes.drop (k + 1) := by
    intro k hk
    rw [List.drop_eq_getElem_cons hk, List.getD_eq_getElem _ _ hk]
  rw [wordAt, bytes32_le32, hget a (by omega), hget (a + 1) (by omega), hget (a + 2) (by omega),
    hget (a + 3) (by omega)]
  rfl

/-- What decodes as a header begins with the sixteen bytes that spell it (R71). -/
theorem eq_encode_append_of_decodeHeader {bytes : List Byte} {i : Instr} (h : decodeHeader bytes = .ok i) :
    bytes = encode i ++ bytes.drop 16 := by
  obtain ⟨h16, hmagic, rfl⟩ := decodeHeader_eq_ok h
  have hword : ∀ a, a + 4 ≤ 16 → bytes32 (wordAt bytes a) ++ bytes.drop (a + 4) = bytes.drop a :=
    fun a ha => bytes32_wordAt_append_drop (by omega)
  simp only [encode, List.append_assoc, ← hmagic, hword 12, hword 8, hword 4, hword 0, Nat.reduceAdd,
    Nat.reduceLeDiff, List.drop_zero]

theorem decodeHeader_encode (c h r : Word) (rest : List Byte) :
    decodeHeader (encode (.hdr c h r) ++ rest) = .ok (.hdr c h r) := by
  simp [encode, bytes32, decodeHeader]

/-! #### Well-formedness in the words of the decoder: no escape nibble, no `0xFF` (R81, R82) -/

theorem wellFormed_tokXS {lo : Nibble} : (Instr.tokXS lo).wellFormed = true ↔ lo ≠ lenEsc := bne_iff_ne

theorem wellFormed_tokSX {hi : Nibble} : (Instr.tokSX hi).wellFormed = true ↔ hi ≠ litEsc := bne_iff_ne

theorem wellFormed_tokSS {hi lo : Nibble} :
    (Instr.tokSS hi lo).wellFormed = true ↔ hi ≠ litEsc ∧ lo ≠ lenEsc :=
  Bool.and_eq_true_iff.trans (and_congr bne_iff_ne bne_iff_ne)

theorem wellFormed_chainLast {v : Byte} : (Instr.chainLast v).wellFormed = true ↔ v ≠ chainCont := bne_iff_ne

/-- The four quadrants of the opcode map (R82). -/
theorem tokenForm_cases (hi lo : Nibble) :
    (hi = litEsc ∧ lo = lenEsc ∧ tokenForm hi lo = .tokXX) ∨
    (hi = litEsc ∧ lo ≠ lenEsc ∧ tokenForm hi lo = .tokXS lo) ∨
    (hi ≠ litEsc ∧ lo = lenEsc ∧ tokenForm hi lo = .tokSX hi) ∨
    (hi ≠ litEsc ∧ lo ≠ lenEsc ∧ tokenForm hi lo = .tokSS hi lo) := by
  by_cases hhi : hi = litEsc <;> by_cases hlo : lo = lenEsc <;> simp [tokenForm, hhi, hlo]

/-- A form that is read off the nibbles is a row of the token site, spelled by those nibbles (R81). -/
theorem tokenForm_spec (hi lo : Nibble) (rest : List Byte) :
    (tokenForm hi lo).wellFormed = true ∧ (tokenForm hi lo).site = .token ∧
      encode (tokenForm hi lo) = [controlByte hi lo] ∧
      (tokenForm hi lo).fits rest = !endsPayload hi rest.head? rest.length := by
  obtain ⟨rfl, rfl, h⟩ | ⟨rfl, hlo, h⟩ | ⟨hhi, rfl, h⟩ | ⟨hhi, hlo, h⟩ := tokenForm_cases hi lo <;> rw [h]
  · exact ⟨rfl, rfl, rfl, rfl⟩
  · exact ⟨wellFormed_tokXS.mpr hlo, rfl, rfl, rfl⟩
  · exact ⟨wellFormed_tokSX.mpr hhi, rfl, rfl, rfl⟩
  · exact ⟨wellFormed_tokSS.mpr ⟨hhi, hlo⟩, rfl, rfl, rfl⟩

/-- The control byte a token form or a `FIN` is spelled by decodes to it, by where the payload ends (R81, R83). -/
theorem decodeControl_controlByte (hi lo : Nibble) (next : Option Byte) (left : Nat) :
    decodeControl (controlByte hi lo) next left =
      if endsPayload hi next left then .fin hi lo else tokenForm hi lo := by
  simp [decodeControl]

/-- The control byte of a token form whose literal run does not end the payload decodes to that form. -/
theorem decode_controlByte_of_form {hi lo : Nibble} {i : Instr} {rest : List Byte} (hform : tokenForm hi lo = i)
    (hfits : (!endsPayload hi rest.head? rest.length) = true) :
    decode .token (controlByte hi lo :: rest) = .ok i := by
  have hnot : ¬ endsPayload hi rest.head? rest.length = true := by simpa using hfits
  rw [decode, decodeControl_controlByte, if_neg hnot, hform]

/-- Settles O53, row by row: the header by its words, a token row by its nibbles, the others by their one byte. -/
theorem decodeOfEncode : Obligations.DecodeOfEncode := by
  unfold Obligations.DecodeOfEncode
  intro i rest hwf hfits
  cases i with
  | hdr c h r => exact decodeHeader_encode c h r rest
  | tokXX => exact decode_controlByte_of_form rfl hfits
  | tokXS lo =>
    have hlo := wellFormed_tokXS.mp hwf
    exact decode_controlByte_of_form (by simp [tokenForm, hlo]) hfits
  | tokSX hi =>
    have hhi := wellFormed_tokSX.mp hwf
    exact decode_controlByte_of_form (by simp [tokenForm, hhi]) hfits
  | tokSS hi lo =>
    obtain ⟨hhi, hlo⟩ := wellFormed_tokSS.mp hwf
    exact decode_controlByte_of_form (by simp [tokenForm, hhi, hlo]) hfits
  | fin hi lo =>
    have hends : endsPayload hi rest.head? rest.length = true := hfits
    exact congrArg Except.ok ((decodeControl_controlByte hi lo _ _).trans (if_pos hends))
  | lext e => rfl
  | chainMore => rfl
  | chainLast v =>
    exact congrArg Except.ok (if_neg (wellFormed_chainLast.mp hwf))

theorem decodeControl_spec (c : Byte) (rest : List Byte) :
    (decodeControl c rest.head? rest.length).wellFormed = true ∧
      (decodeControl c rest.head? rest.length).site = .token ∧
      encode (decodeControl c rest.head? rest.length) = [c] ∧
      (decodeControl c rest.head? rest.length).fits rest = true := by
  unfold decodeControl
  split
  case isTrue hends => exact ⟨rfl, rfl, by simp [encode], hends⟩
  case isFalse hends =>
    obtain ⟨hwf, hsite, hbytes, hfits⟩ := tokenForm_spec (hiNibble c) (loNibble c) rest
    exact ⟨hwf, hsite, by simp [hbytes], by simp [hfits, hends]⟩

theorem decodeChain_spec (v : Byte) (rest : List Byte) :
    (decodeChain v).wellFormed = true ∧ (decodeChain v).site = .chain ∧ encode (decodeChain v) = [v] ∧
      (decodeChain v).fits rest = true := by
  unfold decodeChain
  split
  case isTrue hv => exact ⟨rfl, rfl, by simp [encode, hv], rfl⟩
  case isFalse hv => exact ⟨wellFormed_chainLast.mpr hv, rfl, rfl, rfl⟩

/-- Settles O54, site by site. -/
theorem encodeOfDecode : Obligations.EncodeOfDecode := by
  unfold Obligations.EncodeOfDecode
  intro w bytes i h
  cases w with
  | container =>
    have hbytes := eq_encode_append_of_decodeHeader h
    obtain ⟨-, -, rfl⟩ := decodeHeader_eq_ok h
    exact ⟨rfl, rfl, _, hbytes, rfl⟩
  | token =>
    cases bytes with
    | nil => cases h
    | cons c rest =>
      cases h
      obtain ⟨hwf, hsite, hbytes, hfits⟩ := decodeControl_spec c rest
      exact ⟨hwf, hsite, rest, by simp [hbytes], hfits⟩
  | litCount =>
    cases bytes with
    | nil => cases h
    | cons e rest => cases h; exact ⟨rfl, rfl, rest, rfl, rfl⟩
  | chain =>
    cases bytes with
    | nil => cases h
    | cons v rest =>
      cases h
      obtain ⟨hwf, hsite, hbytes, hfits⟩ := decodeChain_spec v rest
      exact ⟨hwf, hsite, rest, by simp [hbytes], hfits⟩

/-! ### The opcode map as match and mask (R81) -/

theorem and_0xFF_eq_iff (c : Byte) : c &&& 0xFF = 0xFF ↔ hiNibble c = litEsc ∧ loNibble c = lenEsc := by
  revert c; decide

theorem and_0xF0_eq_iff (c : Byte) : c &&& 0xF0 = 0xF0 ↔ hiNibble c = litEsc := by
  revert c; decide

theorem and_0x0F_eq_iff (c : Byte) : c &&& 0x0F = 0x0F ↔ loNibble c = lenEsc := by
  revert c; decide

theorem extractLsb'_high (c : Byte) : c.extractLsb' 4 4 = hiNibble c := by
  revert c; decide

theorem extractLsb'_low (c : Byte) : c.extractLsb' 0 4 = loNibble c := by
  revert c; decide

/-- Settles O57, quadrant by quadrant of the map by nibble (R82). -/
theorem opcodeMapByMask : Obligations.OpcodeMapByMask := by
  unfold Obligations.OpcodeMapByMask
  intro c
  simp only [and_0xFF_eq_iff, and_0xF0_eq_iff, and_0x0F_eq_iff, extractLsb'_high, extractLsb'_low]
  obtain ⟨hhi, hlo, h⟩ | ⟨hhi, hlo, h⟩ | ⟨hhi, hlo, h⟩ | ⟨hhi, hlo, h⟩ :=
      tokenForm_cases (hiNibble c) (loNibble c)
  · rw [h, if_pos ⟨hhi, hlo⟩]
  · rw [h, if_neg (hlo ·.2), if_pos hhi]
  · rw [h, if_neg (hhi ·.1), if_neg hhi, if_pos hlo]
  · rw [h, if_neg (hhi ·.1), if_neg hhi, if_neg hlo]

/-- Settles O58: each word is evaluated. -/
theorem sampleWordsDecode : Obligations.SampleWordsDecode := by
  unfold Obligations.SampleWordsDecode
  decide

end Sys2Proof.Machine

namespace Sys2Proof.Machine

/-! ### Whole tokens: the parts of format `T` (R72) -/

/-- A token with the bytes after it, part by part as `takeCount` and `takeLength` take them (R72, R83). -/
inductive TokenAt : List Byte → Token → List Byte → Prop
  | fin {c : Byte} {cs lits : List Byte} (hcount : takeCount (hiNibble c) cs = .ok (lits.length, lits)) :
      TokenAt (c :: cs) (.fin lits (loNibble c)) []
  | tok {c d0 d1 : Byte} {cs lits after rest : List Byte} {len : Nat}
      (hcount : takeCount (hiNibble c) cs = .ok (lits.length, lits ++ d0 :: d1 :: after))
      (hlen : takeLength (loNibble c) after = .ok (len, rest)) :
      TokenAt (c :: cs) (.tok lits (le16 d0 d1) len) rest

/-- What `parseToken` answers is a token in its parts. -/
theorem TokenAt.of_parseToken {bytes rest : List Byte} {t : Token} (h : parseToken bytes = .ok (t, rest)) :
    TokenAt bytes t rest := by
  cases bytes with
  | nil => cases h
  | cons c cs =>
    rw [parseToken] at h
    split at h
    case h_1 => cases h
    case h_2 n run hcount =>
      split at h
      case isTrue => cases h
      case isFalse hle =>
        have hn : (run.take n).length = n := List.length_take_of_le (Nat.le_of_not_lt hle)
        have hrun := List.take_append_drop n run
        split at h
        case h_1 hdrop =>
          cases h
          rw [hdrop, List.append_nil] at hrun
          exact .fin (by rw [hn, hrun, hcount])
        case h_2 => cases h
        case h_3 d0 d1 after hdrop =>
          split at h
          case h_1 => cases h
          case h_2 len after' hlen =>
            cases h
            rw [hdrop] at hrun
            exact .tok (by rw [hn, hrun, hcount]) hlen

/-- A token in its parts is what `parseToken` answers. -/
theorem TokenAt.parseToken_eq {bytes rest : List Byte} {t : Token} (h : TokenAt bytes t rest) :
    parseToken bytes = .ok (t, rest) := by
  cases h with
  | fin hcount => simp [parseToken, hcount]
  | tok hcount hlen => simp [parseToken, hcount, hlen]

/-- The bytes of a token in its parts are its encoding: each part has one spelling (R80). -/
theorem TokenAt.bytes_eq {bytes rest : List Byte} {t : Token} (h : TokenAt bytes t rest) :
    bytes = encodeToken t ++ rest := by
  cases h with
  | @fin c cs lits hcount =>
    obtain ⟨hhi, hcs, -⟩ := takeCount_eq_ok hcount
    rw [encodeToken, ← hhi, controlByte_nibbles, ← hcs, List.append_nil]
  | @tok c d0 d1 cs lits after rest len hcount hlen =>
    obtain ⟨hhi, hcs, -⟩ := takeCount_eq_ok hcount
    obtain ⟨hlo, hafter, -⟩ := takeLength_eq_ok hlen
    rw [encodeToken, ← hhi, ← hlo, controlByte_nibbles, bytes16_le16, hcs, hafter]
    simp

/-- The encoding of a well-formed token is that token in its parts (R72, R74, R77). -/
theorem tokenAt_encodeToken {t : Token} {rest : List Byte} (hwf : t.wellFormed = true)
    (hlast : (∃ lits lb, t = .fin lits lb) → rest = []) : TokenAt (encodeToken t ++ rest) t rest := by
  cases t with
  | fin lits lb =>
    obtain rfl := hlast ⟨lits, lb, rfl⟩
    have hn : lits.length ≤ 270 := by simpa [Token.wellFormed] using hwf
    have h := TokenAt.fin (c := controlByte (encodeCount lits.length).1 lb)
      (by rw [hiNibble_controlByte]; exact takeCount_encodeCount lits.length hn lits)
    rw [loNibble_controlByte] at h
    rwa [encodeToken, List.append_nil]
  | tok lits dist len =>
    obtain ⟨⟨hn, -⟩, hlen⟩ : (lits.length ≤ 270 ∧ dist ≠ 0) ∧ 4 ≤ len := by simpa [Token.wellFormed] using hwf
    have h := TokenAt.tok (c := controlByte (encodeCount lits.length).1 (encodeLength len).1)
      (d0 := byteOf dist.toNat 0) (d1 := byteOf dist.toNat 1) (after := (encodeLength len).2 ++ rest)
      (by rw [hiNibble_controlByte]; exact takeCount_encodeCount lits.length hn _)
      (by rw [loNibble_controlByte]; exact takeLength_encodeLength len hlen rest)
    rw [le16_bytes] at h
    simpa [encodeToken, bytes16] using h

theorem encodeToken_ne_nil (t : Token) : encodeToken t ≠ [] := by
  cases t <;> exact List.cons_ne_nil _ _

/-- Settles O55: the parts of the encoding are taken one after the other. -/
theorem parseOfEncodedToken : Obligations.ParseOfEncodedToken :=
  fun _ _ hwf hlast => (tokenAt_encodeToken hwf hlast).parseToken_eq

/-- Settles O56: each part that was taken has one spelling. -/
theorem tokenSpellingUnique : Obligations.TokenSpellingUnique :=
  fun _ _ _ h => (TokenAt.of_parseToken h).bytes_eq

/-! ### A round of the whole decode is a token and its effect (R150, R156) -/

/-- Without a limit, appending bytes one by one appends the list. -/
theorem appendList_none (bs out : List Byte) : appendList none bs out = .ok (out ++ bs) := by
  induction bs generalizing out with
  | nil => simp [appendList]
  | cons b bs ih => simp [appendList, atLimit, ih]

/-- Without a limit, a copy from a valid distance appends the bytes of R137. -/
theorem copyList_none {d : Nat} (hd : 1 ≤ d) (n : Nat) {out : List Byte} (hle : d ≤ out.length) :
    copyList none d n out = .ok (out ++ copied d n out) := by
  induction n generalizing out with
  | zero => simp [copyList]
  | succ n ih =>
    have hle' : d ≤ (out ++ [out.getD (out.length - d) 0]).length := by simp; omega
    simp only [copyList, atLimit, Bool.false_eq_true, if_false]
    rw [ih hle', copied_succ hd hle, List.append_assoc, List.singleton_append]

/-- The test of R131 as the decode makes it. -/
theorem distanceValid_tok {out lits : List Byte} {dist : Half} {len : Nat} :
    distanceValid out (.tok lits dist len) = true ↔
      ¬ (dist.toNat = 0 ∨ (out ++ lits).length < dist.toNat) := by
  have h0 : dist.toNat = 0 ↔ dist = 0 := (BitVec.toNat_eq (x := dist) (y := 0)).symm
  simp [distanceValid, h0]

/-- A token whose distance is valid takes one round: its effect on the output, and on with the bytes after it. -/
theorem TokenAt.decodeTokens_eq {bytes rest out : List Byte} {t : Token} (h : TokenAt bytes t rest)
    (hv : distanceValid out t = true) (fuel : Nat) :
    decodeTokens none (fuel + 1) bytes out = decodeTokens none fuel rest (applyToken out t) := by
  cases h with
  | fin hcount => cases fuel <;> simp [decodeTokens, hcount, appendList_none, applyToken]
  | @tok c d0 d1 cs lits after rest len hcount hlen =>
    have hok := distanceValid_tok.mp hv
    have hcopy := copyList_none (d := (le16 d0 d1).toNat) (by omega) len (out := out ++ lits) (by omega)
    have hshort : ¬ (lits ++ d0 :: d1 :: after).length < lits.length := by simp
    simp only [decodeTokens, hcount, if_neg hshort, List.take_left, List.drop_left, appendList_none, if_neg hok, hlen,
      hcopy, applyToken]

/-- A round that succeeds has found a token at the front of the bytes, its distance valid. -/
theorem tokenAt_of_decodeTokens {fuel : Nat} {c : Byte} {cs out o : List Byte}
    (h : decodeTokens none (fuel + 1) (c :: cs) out = .ok o) :
    ∃ t rest, TokenAt (c :: cs) t rest ∧ distanceValid out t = true := by
  rw [decodeTokens] at h
  split at h
  case h_1 => cases h
  case h_2 n run hcount =>
    split at h
    case isTrue => cases h
    case isFalse hle =>
      have hn : (run.take n).length = n := List.length_take_of_le (Nat.le_of_not_lt hle)
      have hrun := List.take_append_drop n run
      rw [appendList_none] at h
      dsimp only at h
      split at h
      case h_1 hdrop =>
        rw [hdrop, List.append_nil] at hrun
        exact ⟨_, _, .fin (lits := run.take n) (by rw [hn, hrun, hcount]), rfl⟩
      case h_2 => cases h
      case h_3 d0 d1 after hdrop =>
        rw [hdrop] at hrun
        split at h
        case isTrue => cases h
        case isFalse hok =>
          split at h
          case h_1 => cases h
          case h_2 len rest hlen =>
            exact ⟨_, _, .tok (lits := run.take n) (by rw [hn, hrun, hcount]) hlen, distanceValid_tok.mpr hok⟩

/-! ### A payload that decodes is tokens laid end to end (R70, R83) -/

/-- Tokens laid end to end, each distance valid on the output that the tokens before it give. -/
inductive TokensFrom : List Byte → List Token → List Byte → Prop
  | nil {out : List Byte} : TokensFrom out [] []
  | cons {out bytes rest : List Byte} {t : Token} {ts : List Token} (head : TokenAt bytes t rest)
      (valid : distanceValid out t = true) (tail : TokensFrom (applyToken out t) ts rest) :
      TokensFrom out (t :: ts) bytes

/-- A decode that succeeds has run over such tokens, and its output is what they give. -/
theorem TokensFrom.of_decodeTokens {fuel : Nat} {bytes out o : List Byte}
    (h : decodeTokens none fuel bytes out = .ok o) :
    ∃ ts, TokensFrom out ts bytes ∧ o = ts.foldl applyToken out := by
  induction fuel generalizing bytes out with
  | zero =>
    cases bytes with
    | nil => cases h; exact ⟨[], .nil, rfl⟩
    | cons c cs => cases h
  | succ fuel ih =>
    cases bytes with
    | nil => cases h; exact ⟨[], .nil, rfl⟩
    | cons c cs =>
      obtain ⟨t, rest, hat, hvalid⟩ := tokenAt_of_decodeTokens h
      rw [hat.decodeTokens_eq hvalid] at h
      obtain ⟨ts, hts, ho⟩ := ih h
      exact ⟨t :: ts, .cons hat hvalid hts, ho⟩

/-- A decode over such tokens succeeds with what they give, one unit of fuel for each of them. -/
theorem TokensFrom.decodeTokens_eq {bytes out : List Byte} {ts : List Token} (h : TokensFrom out ts bytes)
    {fuel : Nat} (hfuel : ts.length ≤ fuel) : decodeTokens none fuel bytes out = .ok (ts.foldl applyToken out) := by
  induction h generalizing fuel with
  | nil => cases fuel <;> rfl
  | cons hat hvalid _ ih =>
    obtain ⟨fuel, rfl⟩ := Nat.exists_eq_add_one_of_ne_zero (Nat.ne_zero_of_lt hfuel)
    rw [hat.decodeTokens_eq hvalid, ih (Nat.le_of_succ_le_succ hfuel), List.foldl_cons]

/-- Such bytes are the concatenation of the tokens' encodings (R70). -/
theorem TokensFrom.bytes_eq {bytes out : List Byte} {ts : List Token} (h : TokensFrom out ts bytes) :
    bytes = ts.flatMap encodeToken := by
  induction h with
  | nil => rfl
  | cons hat _ _ ih => rw [hat.bytes_eq, ih, List.flatMap_cons]

/-- Each token takes a byte at least (R79, R162). -/
theorem length_le_length_flatMap_encodeToken (ts : List Token) :
    ts.length ≤ (ts.flatMap encodeToken).length := by
  induction ts with
  | nil => exact Nat.le_refl 0
  | cons t ts ih =>
    have := List.length_pos_of_ne_nil (encodeToken_ne_nil t)
    simp only [List.flatMap_cons, List.length_append, List.length_cons]
    omega

/-- A token with bytes after it is not final (R83). -/
theorem TokenAt.eq_tok_or_rest_nil {bytes rest : List Byte} {t : Token} (h : TokenAt bytes t rest) :
    (∃ lits dist len, t = .tok lits dist len) ∨ rest = [] := by
  cases h with
  | fin => exact .inr rfl
  | tok => exact .inl ⟨_, _, _, rfl⟩

/-- Only the last of the tokens can be final (R83). -/
theorem TokensFrom.eq_tok_of_mem_dropLast {bytes out : List Byte} {ts : List Token} (h : TokensFrom out ts bytes) :
    ∀ t ∈ ts.dropLast, ∃ lits dist len, t = .tok lits dist len := by
  induction h with
  | nil => simp
  | @cons out bytes rest t ts hat _ htail ih =>
    cases htail with
    | nil => simp
    | @cons _ _ _ u us hnext _ _ =>
      intro v hv
      obtain rfl | hv := List.mem_cons.mp hv
      · refine hat.eq_tok_or_rest_nil.resolve_right fun hnil => encodeToken_ne_nil u ?_
        exact (List.append_eq_nil_iff.mp (hnext.bytes_eq.symm.trans hnil)).1
      · exact ih v hv

/-- What a token adds to the length of the output (R150, R160). -/
theorem length_applyToken (out : List Byte) (t : Token) :
    (applyToken out t).length = out.length + t.outputLength := by
  cases t <;> simp [applyToken, Token.outputLength]

theorem length_foldl_applyToken (ts : List Token) (out : List Byte) :
    (ts.foldl applyToken out).length = out.length + (ts.map Token.outputLength).sum := by
  induction ts generalizing out with
  | nil => rfl
  | cons t ts ih => simp [ih, length_applyToken, Nat.add_assoc]

/-- A source that decodes has passed the four tests of its header (R156). -/
theorem decodeTokens_of_decodeSource {bytes out : List Byte} {maxOut : Option Nat}
    (h : decodeSource bytes maxOut = .ok out) :
    decodeTokens maxOut (wordAt bytes 4).toNat ((bytes.drop hdrBytes).take (wordAt bytes 4).toNat) [] = .ok out := by
  unfold decodeSource at h
  split_ifs at h
  exact h

/-- Settles O51: the rounds of the decode are the tokens, and no token but the last can end the payload. -/
theorem successIsATokenSequence : Obligations.SuccessIsATokenSequence := by
  unfold Obligations.SuccessIsATokenSequence
  intro bytes out h
  obtain ⟨ts, hts, hout⟩ := TokensFrom.of_decodeTokens (decodeTokens_of_decodeSource h)
  refine ⟨ts, hts.bytes_eq, hout, ?_, hts.eq_tok_of_mem_dropLast⟩
  rw [hout, length_foldl_applyToken, List.length_nil, Nat.zero_add]

/-! ### The source of assembled tokens (R90, R155) -/

/-- Well-formed back-reference tokens, each distance valid where it is used, in front of tokens laid end to end. -/
theorem tokensFrom_append {toks last : List Token} {out bytes : List Byte}
    (htoks : ∀ t ∈ toks, t.wellFormed = true ∧ ∃ lits dist len, t = .tok lits dist len)
    (hvalid : ∀ pre t post, toks = pre ++ t :: post → distanceValid (pre.foldl applyToken out) t = true)
    (hlast : TokensFrom (toks.foldl applyToken out) last bytes) :
    TokensFrom out (toks ++ last) (toks.flatMap encodeToken ++ bytes) := by
  induction toks generalizing out with
  | nil => exact hlast
  | cons t ts ih =>
    obtain ⟨⟨hwf, lits, dist, len, rfl⟩, hts⟩ := List.forall_mem_cons.mp htoks
    rw [List.flatMap_cons, List.append_assoc]
    exact .cons (tokenAt_encodeToken hwf nofun) (hvalid [] _ ts rfl)
      (ih hts (fun pre u post hsplit => hvalid (_ :: pre) u post (congrArg _ hsplit)) hlast)

/-- A source made of a header, the payload it announces and any bytes after it decodes as that payload (R70, R156). -/
theorem decodeSource_encode_hdr {c h r : Word} {payload trail : List Byte} (hc : c.toNat = payload.length)
    (maxOut : Option Nat) :
    decodeSource (encode (.hdr c h r) ++ (payload ++ trail)) maxOut =
      decodeTokens maxOut payload.length payload [] := by
  obtain ⟨-, hmagic, hwords⟩ := decodeHeader_eq_ok (decodeHeader_encode c h r (payload ++ trail))
  obtain ⟨hsize, -, -⟩ := Instr.hdr.inj hwords
  have hlen : (encode (.hdr c h r)).length = hdrBytes := rfl
  have hmin : magicBytes ≤ hdrBytes := by decide
  rw [decodeSource, ← hsize, hc, List.drop_left' hlen, List.take_left, List.length_append, List.length_append, hlen,
    if_neg (by omega), if_neg (not_not.mpr hmagic), if_neg (by omega), if_neg (by omega)]

/-- The payload of a program of token lines. -/
theorem flatMap_encodeLine_token (ts : List Token) :
    (ts.map Line.token).flatMap encodeLine = ts.flatMap encodeToken :=
  List.flatMap_map ..

/-- Settles O52: the assembled payload is tokens laid end to end, and the header announces its length. -/
theorem assembledTokensDecode : Obligations.AssembledTokensDecode := by
  unfold Obligations.AssembledTokensDecode
  intro toks last h r trail htoks hlast hvalid hsize
  have hend : TokensFrom (toks.foldl applyToken []) last (last.flatMap encodeToken) := by
    obtain rfl | ⟨lits, lb, rfl, hwf⟩ := hlast
    · exact .nil
    · exact .cons (tokenAt_encodeToken (rest := []) hwf fun _ => rfl) rfl .nil
  have hall := tokensFrom_append htoks hvalid hend
  rw [← List.flatMap_append] at hall
  have hcsize : (BitVec.ofNat 32 ((toks ++ last).flatMap encodeToken).length).toNat =
      ((toks ++ last).flatMap encodeToken).length := (BitVec.toNat_ofNat ..).trans (Nat.mod_eq_of_lt hsize)
  rw [assemble, Program.header, Program.payload, flatMap_encodeLine_token, Option.getD_none, List.append_assoc,
    decodeSource_encode_hdr hcsize, hall.decodeTokens_eq (length_le_length_flatMap_encodeToken _)]

end Sys2Proof.Machine

namespace Sys2Proof.Machine

/-! ### The header rules, case by case (R101, R102) -/

/-- A word inside bytes that are known to stand in the source (R50). -/
theorem srcWord_of_slice_within {s : State} {bytes : List Byte} {a n k : Nat} (hs : s.src.slice a n = some bytes)
    (hin : a + n ≤ s.srcLen) (hk : k + 4 ≤ n) : srcWord (a + k) s = .ok (wordAt bytes k) := by
  obtain ⟨hlen, hread⟩ := Memory.slice_eq_some.mp hs
  have hbyte : ∀ i, i < n → srcByte (a + i) s = .ok (bytes.getD i 0) := by
    intro i hi
    refine srcByte_eq_ok.mpr ⟨by omega, ?_⟩
    have hlt : i < bytes.length := hlen ▸ hi
    rw [hread i hi, List.getElem?_eq_getElem hlt, List.getD_eq_getElem _ _ hlt]
  exact srcWord_eq_ok.mpr ⟨_, _, _, _, hbyte k (by omega), hbyte (k + 1) (by omega),
    hbyte (k + 2) (by omega), hbyte (k + 3) (by omega), rfl⟩

theorem magicStep_short {s : State} (h : s.srcLen < magicBytes) (w : Word) :
    magicStep w s = s.raise .truncatedInput := if_pos h

/-- With four bytes in the source, `S_MAGIC` latches the word it tests. -/
theorem magicStep_long {s : State} (h : magicBytes ≤ s.srcLen) (w : Word) :
    magicStep w s =
      if w ≠ magicWord then State.raise .invalidMagic { s with magic := w }
      else { s with magic := w, st := .hdr } := if_neg (Nat.not_lt.mpr h)

theorem headerStep_short {s : State} (h : s.srcLen < hdrBytes) (c n r : Word) :
    headerStep c n r s = s.raise .truncatedInput := if_pos h

/-- With sixteen bytes in the source, `S_HDR` latches its three words before it tests the declared size. -/
theorem headerStep_long {s : State} (h : hdrBytes ≤ s.srcLen) (c n r : Word) :
    headerStep c n r s =
      if s.srcLen - hdrBytes < c.toNat then
        State.raise .truncatedInput { s with csize := c, sizeHint := n, reserved := r }
      else { s with csize := c, sizeHint := n, reserved := r, st := .ctrl } := if_neg (Nat.not_lt.mpr h)

/-- Settles O6: the step is the rule of `S_MAGIC` with the word that the four bytes spell. -/
theorem magicStepRule : Obligations.MagicStepRule := by
  unfold Obligations.MagicStepRule
  intro s hst
  refine ⟨step_magic_short hst, fun b0 b1 b2 b3 hlen hs => ?_⟩
  have hword : srcWord 0 s = .ok (le32 b0 b1 b2 b3) := srcWord_of_slice_within (k := 0) hs hlen (by omega)
  rw [step_magic hst hword, magicStep_long hlen]
  rfl

/-- Settles O7: the step is the rule of `S_HDR` with the words at offsets 0, 4 and 8 of the twelve bytes. -/
theorem headerStepRule : Obligations.HeaderStepRule := by
  unfold Obligations.HeaderStepRule
  intro s hst
  refine ⟨step_hdr_short hst, fun c0 c1 c2 c3 h0 h1 h2 h3 r0 r1 r2 r3 hlen hs => ?_⟩
  have hc : srcWord 4 s = .ok (le32 c0 c1 c2 c3) := srcWord_of_slice_within (k := 0) hs hlen (by omega)
  have hn : srcWord 8 s = .ok (le32 h0 h1 h2 h3) := srcWord_of_slice_within (k := 4) hs hlen (by omega)
  have hr : srcWord 12 s = .ok (le32 r0 r1 r2 r3) := srcWord_of_slice_within (k := 8) hs hlen (by omega)
  rw [step_hdr hst hc hn hr, headerStep_long hlen]
  rfl

/-! ### The instructions with a unit of their own, in the control states they belong to (R100, R112, R133) -/

theorem exec_hdr_of_magic {s : State} (h : s.st = .magic) (c n r : Word) :
    exec (.hdr c n r) s = .next (magicStep magicWord s) := by
  simp only [exec, execHdr, h]

theorem exec_hdr_of_hdr {s : State} (h : s.st = .hdr) (c n r : Word) :
    exec (.hdr c n r) s = .next (headerStep c n r s) := by
  simp only [exec, execHdr, h]

theorem exec_lext {s : State} (h : s.st = .litExt) (e : Byte) : exec (.lext e) s = .next (litExtStep e s) := by
  simp only [exec, execLext, h]

theorem exec_chainMore {s : State} (h : s.st = .lenExt) : exec .chainMore s = .next (chainStep chainCont s) := by
  simp only [exec, execChainMore, h]

theorem exec_chainLast {s : State} (h : s.st = .lenExt) (v : Byte) :
    exec (.chainLast v) s = .next (chainStep v s) := by
  simp only [exec, execChainLast, h]

theorem litExtStep_exhausted {s : State} (h : s.cur = s.csize.toNat) (e : Byte) :
    litExtStep e s = s.raise .truncatedInput := if_pos (exhausted_iff.mpr h)

theorem chainStep_exhausted {s : State} (h : s.cur = s.csize.toNat) (v : Byte) :
    chainStep v s = s.raise .truncatedInput := if_pos (exhausted_iff.mpr h)

/-- The first step of `HDR`: its word is the magic word, so it passes the test (R101). -/
theorem exec_hdr_magic_completes {s : State} (h : s.st = .magic) (hlen : magicBytes ≤ s.srcLen) (c n r : Word) :
    exec (.hdr c n r) s = .next { s with magic := magicWord, st := .hdr } := by
  rw [exec_hdr_of_magic h, magicStep_long hlen, if_neg (not_not.mpr rfl)]

/-- The second step of `HDR`, where the source holds the declared payload (R102). -/
theorem exec_hdr_completes {s : State} (h : s.st = .hdr) (hlen : hdrBytes ≤ s.srcLen) {c : Word}
    (hsize : c.toNat ≤ s.srcLen - hdrBytes) (n r : Word) :
    exec (.hdr c n r) s = .next { s with csize := c, sizeHint := n, reserved := r, st := .ctrl } := by
  rw [exec_hdr_of_hdr h, headerStep_long hlen, if_neg (Nat.not_lt.mpr hsize)]

/-- The second step of `HDR`, where the source ends before the declared payload does (R102): the words are latched. -/
theorem exec_hdr_payload_cut {s : State} (h : s.st = .hdr) (hlen : hdrBytes ≤ s.srcLen) {c : Word}
    (hsize : s.srcLen - hdrBytes < c.toNat) (n r : Word) :
    exec (.hdr c n r) s =
      .next (State.raise .truncatedInput { s with csize := c, sizeHint := n, reserved := r }) := by
  rw [exec_hdr_of_hdr h, headerStep_long hlen, if_pos hsize]

/-- Settles O8: the two steps of `HDR`, one after the other. -/
theorem hdrCompletes : Obligations.HdrCompletes := by
  unfold Obligations.HdrCompletes
  intro c n r s hlen hsize
  refine ⟨fun hst => ?_, fun hst => exec_hdr_completes hst hlen hsize n r⟩
  have hmagic := exec_hdr_magic_completes hst (Nat.le_trans (by decide) hlen) c n r
  have hwords := exec_hdr_completes (s := { s with magic := magicWord, st := .hdr }) rfl hlen hsize n r
  exact ⟨hmagic, by rw [execTimes_succ _ hmagic, execTimes_succ _ hwords, execTimes_zero]; rfl⟩

/-- Settles O18: each unit runs the rule of its control state, and the first test of the rule fails; in the third
clause it is the test of the declared size (T1 to T4 and T7 of R182). -/
theorem cutShortUnitsAbort : Obligations.CutShortUnitsAbort := by
  unfold Obligations.CutShortUnitsAbort
  refine ⟨fun c n r s => ⟨fun hst hlen => ?_, fun hst hlen => ?_, fun hst hlen hsize => ?_⟩,
    fun e v s hend => ⟨fun hst => ?_, fun hst => ⟨?_, ?_⟩⟩⟩
  · rw [exec_hdr_of_magic hst, magicStep_short hlen]
  · rw [exec_hdr_of_hdr hst, headerStep_short hlen]
  · exact exec_hdr_payload_cut hst hlen hsize n r
  · rw [exec_lext hst, litExtStep_exhausted hend]
  · rw [exec_chainMore hst, chainStep_exhausted hend]
  · rw [exec_chainLast hst, chainStep_exhausted hend]

end Sys2Proof.Machine

namespace Sys2Proof.Machine

/-! ### The control byte and the literal-count extension (R110, R112) -/

/-- The escape of the literal count, on the control byte's value (R110). -/
theorem hiNibble_eq_litEsc_iff (c : Byte) : hiNibble c = litEsc ↔ c.toNat / 16 = 15 := by
  rw [← BitVec.toNat_inj, hiNibble_toNat]
  rfl

/-- Before the end of the payload the `S_LITEXT` rule takes its byte, whatever the value (R112, R113). -/
theorem litExtStep_completes {s : State} (h : s.cur < s.csize.toNat) (e : Byte) :
    litExtStep e s =
      { s with cur := s.cur + 1, lc := litEsc.toNat + e.toNat, litRem := litEsc.toNat + e.toNat, st := .lit } :=
  if_neg fun hend => Nat.ne_of_lt h (exhausted_iff.mp hend)

/-- Settles O9: the three rows of the transition table that leave `S_CTRL`, the two of the control byte told apart by
the escape. -/
theorem controlStepRule : Obligations.ControlStepRule := by
  unfold Obligations.ControlStepRule
  intro s hst
  refine ⟨step_ctrl_end hst, fun c hp => ?_⟩
  have hc : payloadByte s.cur s = .ok c := State.atPayload_head hp
  by_cases hesc : hiNibble c = litEsc
  · rw [if_pos ((hiNibble_eq_litEsc_iff c).mp hesc), step_of_edge (.ctrlExt hst c hc hesc), hesc]
    rfl
  · rw [if_neg (mt (hiNibble_eq_litEsc_iff c).mpr hesc), step_of_edge (.ctrlLit hst c hc hesc), hiNibble_toNat]
    rfl

/-- Settles O10: the two rows of the transition table that leave `S_LITEXT`. -/
theorem litExtStepRule : Obligations.LitExtStepRule := by
  unfold Obligations.LitExtStepRule
  intro s hst
  exact ⟨fun hend => step_of_edge (.litExtEnd hst hend),
    fun e hp => step_of_edge (.litExtByte hst e (State.atPayload_head hp))⟩

/-- Settles O11: `LEXT` runs the rule of `S_LITEXT`, which asks for no further byte. -/
theorem lextCompletes : Obligations.LextCompletes := by
  unfold Obligations.LextCompletes
  intro e s hst hlt
  rw [exec_lext hst, litExtStep_completes hlt]
  rfl

end Sys2Proof.Machine

namespace Sys2Proof.Machine

/-! ### The literal run (R120, R124) -/

/-- Room for one more byte than `n` leaves room for the next byte and, once it is appended, for the other `n`. -/
theorem State.hasRoom_succ {s : State} {n : Nat} (h : s.hasRoom (n + 1)) (b : Byte) :
    s.hasRoom 1 ∧ (s.push b).hasRoom n := by
  refine ⟨fun m hm => ?_, fun m hm => ?_⟩ <;> have hlimit := h m hm
  · omega
  · simp only [State.push_outLen]
    omega

/-- One literal byte within the run and the limit: appended, and `S_LIT` stays (R120). -/
theorem step_lit_byte {s : State} (hst : s.st = .lit) (hpos : 0 < s.litRem) (hle : s.litRem ≤ s.left) {b : Byte}
    (hb : payloadByte s.cur s = .ok b) (hroom : s.hasRoom 1) :
    step s = .next { s.push b with cur := s.cur + 1, litRem := s.litRem - 1 } := by
  rw [step_of_edge (.litByte hst hle hpos b hb (limitHit_eq_false.mpr hroom)), ← hst]
  rfl

/-- The whole literal run, by induction on its bytes: each step appends the byte at the cursor and leaves the state in
which the other bytes are a shorter run (R124). -/
theorem run_lit {lits : List Byte} : ∀ {s : State}, s.st = .lit → s.litRem = lits.length → s.atPayload lits →
    s.hasRoom lits.length →
    run lits.length s =
      .next { s with cur := s.cur + lits.length, litRem := 0, out := s.out.writeList s.outLen lits,
                     outLen := s.outLen + lits.length } := by
  induction lits with
  | nil =>
    intro s _ hrem _ _
    have hz : s.litRem = 0 := hrem
    rw [← hz]
    rfl
  | cons b bs ih =>
    intro s hst hrem hp hroom
    have hlen : s.litRem = bs.length + 1 := hrem
    have hfits : s.litRem ≤ s.left := by
      have := hp.1
      simp only [State.left, hrem]
      omega
    obtain ⟨hnow, hrest⟩ := State.hasRoom_succ hroom b
    have htail := (State.atPayload_append (bs := [b]) (cs := bs)).mp hp |>.2
    rw [List.length_cons, run_succ _ (step_lit_byte hst (by omega) hfits (State.atPayload_head hp) hnow)]
    refine Eq.trans (ih hst ?_ htail hrest) ?_
    · simp [hlen]
    · simp [Memory.writeList, Nat.add_assoc, Nat.add_comm 1]

/-- Settles O12: the five rows of the transition table that leave `S_LIT`, and the whole run by induction on its
bytes. -/
theorem literalStepRule : Obligations.LiteralStepRule := by
  unfold Obligations.LiteralStepRule
  intro s hst
  refine ⟨fun hlong => step_of_edge (.litLong hst hlong), fun b hpos hle hp => ?_,
    fun hz hend => step_of_edge (.litFinish hst hz hend), fun hz hne => step_of_edge (.litNext hst hz hne),
    fun lits => run_lit hst⟩
  have hb := State.atPayload_head hp
  change step s = .next (if s.limitHit then _ else _)
  cases hlimit : s.limitHit with
  | true => exact step_of_edge (.litLimit hst hle hpos b hb hlimit)
  | false => exact step_lit_byte hst hpos hle hb (limitHit_eq_false.mp hlimit)

end Sys2Proof.Machine

namespace Sys2Proof.Machine

/-! ### The distance field and one chain byte (R130, R133) -/

/-- The distance field is the two bytes at the cursor (R76). -/
theorem distanceField_of_atPayload {s : State} {d0 d1 : Byte} (h : s.atPayload [d0, d1]) :
    distanceField s = .ok (le16 d0 d1) := by
  have htail := (State.atPayload_append (bs := [d0]) (cs := [d1])).mp h |>.2
  have hsecond : payloadByte (s.cur + 1) s = .ok d1 := State.atPayload_head htail
  exact distanceField_eq_ok.mpr ⟨d0, d1, State.atPayload_head h, hsecond, rfl⟩

/-- Bytes that stand at the cursor are not more than the payload bytes left (R42). -/
theorem State.atPayload_length_le_left {s : State} {bytes : List Byte} (h : s.atPayload bytes) :
    bytes.length ≤ s.left := by
  have hfits := h.1
  unfold State.left
  omega

/-- Settles O13: the four rows of the transition table that leave `S_DIST`. -/
theorem distanceStepRule : Obligations.DistanceStepRule := by
  unfold Obligations.DistanceStepRule
  intro s hst
  refine ⟨fun hshort => step_of_edge (.distShort hst hshort), fun d0 d1 hp => ?_⟩
  have hleft : 2 ≤ s.left := State.atPayload_length_le_left hp
  have hd := distanceField_of_atPayload hp
  by_cases hbad : (le16 d0 d1).toNat = 0 ∨ s.outLen < (le16 d0 d1).toNat
  · rw [if_pos hbad, step_of_edge (.distBad hst hleft _ hd hbad)]
  · rw [if_neg hbad]
    have hmin : 1 ≤ (le16 d0 d1).toNat := by omega
    have hmax : (le16 d0 d1).toNat ≤ s.outLen := by omega
    by_cases hesc : s.lb = lenEsc
    · have hbase : minMatch + s.lb.toNat = 19 := by rw [hesc]; rfl
      rw [step_of_edge (.distChain hst hleft _ hd hmin hmax hesc), hbase]
      exact congrArg _ (if_pos hesc).symm
    · rw [step_of_edge (.distCopy hst hleft _ hd hmin hmax hesc)]
      exact congrArg _ (if_neg hesc).symm

/-- The chain byte `0xFF`: 255 is added and `S_LENEXT` stays (R133). -/
theorem step_chain_more {s : State} (hst : s.st = .lenExt) (hb : payloadByte s.cur s = .ok chainCont) :
    step s = .next { s with cur := s.cur + 1, brLen := s.brLen + 255 } := by
  rw [step_of_edge (.chainMore hst hb), ← hst]
  rfl

/-- Settles O14: the three rows of the transition table that leave `S_LENEXT`. -/
theorem chainStepRule : Obligations.ChainStepRule := by
  unfold Obligations.ChainStepRule
  intro s hst
  refine ⟨fun hend => step_of_edge (.chainEnd hst hend), fun v hp => ?_⟩
  have hb := State.atPayload_head hp
  by_cases hv : v = chainCont
  · subst hv
    exact (step_chain_more hst hb).trans (congrArg _ (if_pos rfl).symm)
  · exact (step_of_edge (.chainLast hst v hb hv)).trans (congrArg _ (if_neg hv).symm)

/-- Before the end of the payload the chain byte `0xFF` is added and `S_LENEXT` stays (R133). -/
theorem chainStep_chainCont {s : State} (h : s.cur < s.csize.toNat) :
    chainStep chainCont s = { s with cur := s.cur + 1, brLen := s.brLen + chainCont.toNat, st := .lenExt } :=
  (if_neg fun hend => Nat.ne_of_lt h (exhausted_iff.mp hend)).trans (if_pos rfl)

/-- Before the end of the payload any other chain byte is added and ends the chain (R133). -/
theorem chainStep_last {s : State} (h : s.cur < s.csize.toNat) {v : Byte} (hv : v ≠ chainCont) :
    chainStep v s =
      { s with cur := s.cur + 1, brLen := s.brLen + v.toNat, copyRem := s.brLen + v.toNat, st := .copy } :=
  (if_neg fun hend => Nat.ne_of_lt h (exhausted_iff.mp hend)).trans (if_neg hv)

/-- Settles O16: `CHAIN.MORE` runs the rule of `S_LENEXT` with the byte `0xFF`. -/
theorem chainMoreCompletes : Obligations.ChainMoreCompletes := by
  unfold Obligations.ChainMoreCompletes
  intro s hst hlt
  rw [exec_chainMore hst, chainStep_chainCont hlt, ← hst]
  rfl

/-- Settles O17: `CHAIN.LAST` runs the rule of `S_LENEXT` with its byte, which is not `0xFF`. -/
theorem chainLastCompletes : Obligations.ChainLastCompletes := by
  unfold Obligations.ChainLastCompletes
  intro v s hv hst hlt
  rw [exec_chainLast hst, chainStep_last hlt hv]

/-! ### The whole chain (R134) -/

/-- `k` bytes `0xFF` add `255 k` and `S_LENEXT` stays, by induction on the bytes. -/
theorem run_chain_more (k : Nat) : ∀ {s : State}, s.st = .lenExt → s.atPayload (List.replicate k chainCont) →
    run k s = .next { s with cur := s.cur + k, brLen := s.brLen + 255 * k } := by
  induction k with
  | zero => exact fun _ _ => rfl
  | succ k ih =>
    intro s hst hp
    have htail := (State.atPayload_append (bs := [chainCont]) (cs := List.replicate k chainCont)).mp hp |>.2
    rw [run_succ _ (step_chain_more hst (State.atPayload_head hp))]
    refine Eq.trans (ih hst htail) ?_
    simp [Nat.mul_succ, Nat.add_assoc, Nat.add_comm 1, Nat.add_comm 255]

/-- Settles O19: after the bytes `0xFF` one step is left, which takes the last byte or finds the payload exhausted. -/
theorem chainAddsEveryByte : Obligations.ChainAddsEveryByte := by
  unfold Obligations.ChainAddsEveryByte
  intro s k v hst hv
  refine ⟨fun hp => ?_, fun hp hend => ?_⟩
  · obtain ⟨hmore, hlast⟩ := State.atPayload_append.mp hp
    rw [List.length_replicate] at hlast
    have hb : payloadByte (s.cur + k) s = .ok v := State.atPayload_head hlast
    have hstep := step_of_edge
      (.chainLast (s := { s with cur := s.cur + k, brLen := s.brLen + 255 * k }) hst v hb hv)
    rw [run_add k 1 (run_chain_more k hst hmore), run_succ 0 hstep, run_zero]
    simp only [Nat.add_assoc]
  · rw [run_add k 1 (run_chain_more k hst hp)]
    exact ⟨_, run_succ 0 (step_of_edge (.chainEnd hst hend)), rfl, rfl⟩

/-! ### One copied byte and the whole copy (R136, R137) -/

/-- One copied byte within the limit: appended, and `S_COPY` stays (R136). -/
theorem step_copy_byte {s : State} (hst : s.st = .copy) (hpos : 0 < s.copyRem) {b : Byte}
    (hb : readBack s.dist.toNat s = .ok b) (hroom : s.hasRoom 1) :
    step s = .next { s.push b with copyRem := s.copyRem - 1 } := by
  rw [step_of_edge (.copyByte hst hpos b hb (limitHit_eq_false.mpr hroom)), ← hst]
  rfl

/-- Settles O15: the three rows of the transition table that leave `S_COPY`. -/
theorem copyStepRule : Obligations.CopyStepRule := by
  unfold Obligations.CopyStepRule
  intro s hst
  refine ⟨fun b hpos hmin hmax hread => ?_, fun hz => step_of_edge (.copyEnd hst hz)⟩
  have hb : readBack s.dist.toNat s = .ok b := readBack_eq_ok.mpr ⟨hmin, hmax, hread⟩
  change step s = .next (if s.limitHit then _ else _)
  cases hlimit : s.limitHit with
  | true => exact step_of_edge (.copyLimit hst hpos b hb hlimit)
  | false => exact step_copy_byte hst hpos hb (limitHit_eq_false.mp hlimit)

theorem State.length_of_output {s : State} {o : List Byte} (h : s.output = some o) : o.length = s.outLen :=
  (Memory.slice_eq_some.mp h).1

/-- The whole copy, by induction on its length: each step appends the byte at distance `DIST` from the output's end as
it then is, and leaves the state in which a shorter copy from the longer output is to be made (R137). -/
theorem run_copy {n : Nat} : ∀ {s : State} {o : List Byte}, s.st = .copy → s.copyRem = n → s.output = some o →
    1 ≤ s.dist.toNat → s.dist.toNat ≤ s.outLen → s.hasRoom n →
    run n s =
      .next { s with copyRem := 0, out := s.out.writeList s.outLen (copied s.dist.toNat n o),
                     outLen := s.outLen + n } := by
  induction n with
  | zero =>
    intro s o _ hrem _ _ _ _
    have hsame : { s with copyRem := 0 } = s := by rw [← hrem]
    exact congrArg _ hsame.symm
  | succ n ih =>
    intro s o hst hrem ho hmin hmax hroom
    have hlen := State.length_of_output ho
    have hb := readBack_of_output ho hmin hmax
    obtain ⟨hnow, hrest⟩ := State.hasRoom_succ hroom (o.getD (o.length - s.dist.toNat) 0)
    rw [run_succ _ (step_copy_byte hst (by omega) hb hnow), copied_succ hmin (hlen ▸ hmax)]
    refine Eq.trans (ih hst ?_ (Memory.slice_write_end _ ho) hmin (Nat.le_succ_of_le hmax) hrest) ?_
    · simp [hrem]
    · simp [Memory.writeList, Nat.add_assoc, Nat.add_comm 1]

/-- The output after the whole copy is the old one with the copied bytes behind it (R137). -/
theorem run_copy_output {s : State} {o : List Byte} (hst : s.st = .copy) (ho : s.output = some o)
    (hmin : 1 ≤ s.dist.toNat) (hmax : s.dist.toNat ≤ s.outLen) (hroom : s.hasRoom s.copyRem) :
    ∃ t, run s.copyRem s = .next t ∧ t.outLen = s.outLen + s.copyRem ∧
      t.output = some (o ++ copied s.dist.toNat s.copyRem o) := by
  refine ⟨_, run_copy hst rfl ho hmin hmax hroom, rfl, ?_⟩
  have hslice := Memory.slice_writeList_end (copied s.dist.toNat s.copyRem o) ho
  rwa [length_copied] at hslice

/-- The closed form of R137, byte by byte: the copied bytes repeat the last `d` bytes of the output. -/
theorem getElem?_copied {d n i : Nat} {o : List Byte} (hmin : 1 ≤ d) (hmax : d ≤ o.length) (hi : i < n) :
    (copied d n o)[i]? = o[o.length - d + i % d]? := by
  have hmod : i % d < d := Nat.mod_lt i hmin
  have hin : o.length - d + i % d < o.length := by omega
  simp [copied, hi, hin]

/-- The recurrence of R137, in the output and its copy as one list: each copied byte is the one `d` places before it. -/
theorem getElem?_append_copied {d n i : Nat} {o : List Byte} (hmin : 1 ≤ d) (hmax : d ≤ o.length) (hi : i < n) :
    (o ++ copied d n o)[o.length + i]? = (o ++ copied d n o)[o.length + i - d]? := by
  rw [List.getElem?_append_right (by omega), Nat.add_sub_cancel_left, getElem?_copied hmin hmax hi]
  by_cases hfirst : i < d
  · rw [List.getElem?_append_left (by omega), Nat.mod_eq_of_lt hfirst]
    congr 1
    omega
  · have hback : o.length + i - d - o.length = i - d := by omega
    rw [List.getElem?_append_right (by omega), hback, getElem?_copied hmin hmax (by omega),
      ← Nat.mod_eq_sub_mod (by omega)]

/-- Settles O20: the output after the copy is a list, and the two forms of R137 are its bytes. -/
theorem copyIsGrowthAware : Obligations.CopyIsGrowthAware := by
  unfold Obligations.CopyIsGrowthAware
  intro s o hst ho hmin hmax hroom
  obtain ⟨t, hrun, hlen, hout⟩ := run_copy_output hst ho hmin hmax hroom
  have hread : ∀ a, a < s.outLen + s.copyRem → t.out.read a = (o ++ copied s.dist.toNat s.copyRem o)[a]? := by
    intro a ha
    simpa using (Memory.slice_eq_some.mp hout).2 a (hlen ▸ ha)
  have hn := State.length_of_output ho
  rw [← hn] at hmax hread ⊢
  refine ⟨t, hrun, hn ▸ hlen, fun a ha => ?_, fun i hi => ⟨?_, ?_⟩⟩
  · rw [hread a (by omega), List.getElem?_append_left ha]
  · rw [hread _ (by omega), hread _ (by omega), getElem?_append_copied hmin hmax hi]
  · rw [hread _ (by omega), List.getElem?_append_right (by omega), Nat.add_sub_cancel_left,
      getElem?_copied hmin hmax hi]

/-- A copy from distance 1 repeats the last byte (R139). -/
theorem copied_one (n : Nat) (o : List Byte) (b : Byte) : copied 1 n (o ++ [b]) = List.replicate n b := by
  simp [copied, Nat.mod_one, List.map_const']

/-- Settles O21: the copied bytes at distance 1. -/
theorem distanceOneRepeatsLastByte : Obligations.DistanceOneRepeatsLastByte := by
  unfold Obligations.DistanceOneRepeatsLastByte
  intro s o b hst hdist ho hroom
  have hd : s.dist.toNat = 1 := by rw [hdist]; rfl
  have hlen := State.length_of_output ho
  rw [List.length_append, List.length_singleton] at hlen
  obtain ⟨t, hrun, -, hout⟩ := run_copy_output hst ho (by omega) (by omega) hroom
  rw [hd, copied_one] at hout
  exact ⟨t, hrun, hout⟩

/-- A copy no longer than its distance takes old bytes only (R141). -/
theorem copied_eq_take_drop {d n : Nat} {o : List Byte} (hmin : 1 ≤ d) (hmax : d ≤ o.length) (hn : n ≤ d) :
    copied d n o = (o.drop (o.length - d)).take n := by
  refine List.ext_getElem? fun i => ?_
  by_cases hi : i < n
  · rw [getElem?_copied hmin hmax hi, Nat.mod_eq_of_lt (by omega), List.getElem?_take_of_lt hi, List.getElem?_drop]
  · rw [List.getElem?_eq_none (by rw [length_copied]; omega), List.getElem?_take_eq_none (by omega)]

/-- Settles O22: the copied bytes where the copy does not reach its own output. -/
theorem nonOverlappingCopyIsPlain : Obligations.NonOverlappingCopyIsPlain := by
  unfold Obligations.NonOverlappingCopyIsPlain
  intro s o hst ho hmin hmax hle hroom
  have hlen := State.length_of_output ho
  obtain ⟨t, hrun, -, hout⟩ := run_copy_output hst ho hmin hmax hroom
  rw [copied_eq_take_drop hmin (hlen ▸ hmax) hle, hlen] at hout
  exact ⟨t, hrun, hout⟩

end Sys2Proof.Machine

namespace Sys2Proof.Machine

/-! ### The transition table and the bound on the output (R163, R166) -/

/-- Settles O36: the table of R166 row by row; the idle step is none of its rows. -/
theorem stepFollowsTransitionTable : Obligations.StepFollowsTransitionTable := by
  unfold Obligations.StepFollowsTransitionTable
  intro s t hbusy hstep
  cases edge_of_step hstep
  case resting h => rcases h with h | h | h <;> simp [h, Ctl.status] at hbusy
  all_goals simp [*, Ctl.follows]

/-- START keeps the invariant: it leaves the header states' values and no output (R213). -/
theorem State.Inv.start {s : State} (h : s.Inv) : s.start.Inv := by
  obtain ⟨-, hlc, hlit, hbr, hcopy, -⟩ := h.widths
  exact {
    srcWf := h.srcWf, outWf := h.outWf, loaded := h.loaded, written := fun _ => nofun
    statusOf := rfl, errCodeOf := by simp, emptyOut := fun _ => rfl
    curZero := fun _ => rfl, magicOk := by simp [Ctl.inPayload]
    payloadFits := nofun, cursorFits := nofun, doneAtEnd := nofun
    extended := nofun, counts := h.counts, distanceOk := by simp, chained := nofun, copyOk := nofun
    bounded := nofun, limited := fun _ => Nat.zero_le _
    widths := ⟨Nat.two_pow_pos _, hlc, hlit, hbr, hcopy, Nat.two_pow_pos _⟩ }

/-- Every state that a run goes through meets the invariant where the first does. -/
theorem State.Inv.of_run {n : Nat} {s t : State} (h : s.Inv) (hrun : run n s = .next t) : t.Inv := by
  induction n generalizing s with
  | zero => cases hrun; exact h
  | succ n ih =>
    obtain ⟨u, e, hu⟩ := run_succ_eq_next hrun
    exact ih (stepKeepsInvariant s u h (step_of_edge e)) hu

/-- The bound of R163 in a state of the invariant. -/
theorem State.Inv.outLen_le {s : State} (h : s.Inv) : s.outLen ≤ 255 * s.csize.toNat := by
  cases hp : s.st.inPayload with
  | true =>
    have hpaid := h.bounded hp
    have hcursor := h.cursorFits hp
    omega
  | false => simp [h.emptyOut hp]

/-- Settles O45: the invariant holds along the run from START, and bounds the output. -/
theorem outputBounded : Obligations.OutputBounded :=
  fun _ _ _ h hrun => (h.start.of_run hrun).outLen_le

/-! ### Runs of the machine that are executions of one instruction -/

/-- The instruction runs the machine's own step wherever the control state is `c`. -/
def Covers (i : Instr) (c : Ctl) : Prop := ∀ s : State, s.st = c → exec i s = step s

/-- `n` steps of the machine lead from `s` to `t`, and so do `n` executions of `i`. -/
def RunsAs (i : Instr) (n : Nat) (s t : State) : Prop := run n s = .next t ∧ execTimes i n s = .next t

theorem RunsAs.trans {i : Instr} {m n : Nat} {s t u : State} (h : RunsAs i m s t) (h' : RunsAs i n t u) :
    RunsAs i (m + n) s u :=
  ⟨(run_add m n h.1).trans h'.1, (execTimes_add m n h.2).trans h'.2⟩

theorem RunsAs.of_step {i : Instr} {s t : State} (h : step s = .next t) (hexec : exec i s = step s) :
    RunsAs i 1 s t :=
  ⟨run_succ 0 h, execTimes_succ 0 (hexec.trans h)⟩

theorem Covers.runsAs {i : Instr} {c : Ctl} {s t : State} (hc : Covers i c) (hst : s.st = c) (e : Edge s t) :
    RunsAs i 1 s t :=
  .of_step (step_of_edge e) (hc s hst)

theorem covers_tokenForm_lit (hi lo : Nibble) : Covers (tokenForm hi lo) .lit :=
  fun _ h => (exec_tokenForm_lit h hi lo).trans (step_lit h).symm

theorem covers_tokenForm_dist (hi lo : Nibble) : Covers (tokenForm hi lo) .dist :=
  fun _ h => (exec_tokenForm_dist h hi lo).trans (step_dist h).symm

theorem covers_tokenForm_copy (hi lo : Nibble) : Covers (tokenForm hi lo) .copy :=
  fun _ h => (exec_tokenForm_copy h hi lo).trans (step_copy h).symm

/-- The forms with high nibble 15 take the extension byte (R152, R154). -/
theorem covers_tokenForm_litExt {hi lo : Nibble} (hhi : hi = litEsc) : Covers (tokenForm hi lo) .litExt := by
  intro s h
  rw [step_litExt h]
  by_cases hlo : lo = lenEsc <;> simp [tokenForm, hhi, hlo, exec, execTokXX, execTokXS, h]

/-- The forms with low nibble 15 take the chain (R153, R154). -/
theorem covers_tokenForm_lenExt {hi lo : Nibble} (hlo : lo = lenEsc) : Covers (tokenForm hi lo) .lenExt := by
  intro s h
  rw [step_lenExt h]
  by_cases hhi : hi = litEsc <;> simp [tokenForm, hhi, hlo, exec, execTokXX, execTokSX, h]

theorem covers_fin_litExt (hi lo : Nibble) : Covers (.fin hi lo) .litExt := by
  intro s h
  rw [step_litExt h, exec, execFin, h]

theorem covers_fin_lit (hi lo : Nibble) : Covers (.fin hi lo) .lit := by
  intro s h
  rw [step_lit h, exec, execFin, h]

/-- A quantity that no step raises by more than `a` is raised by `n` steps by `a * n` at most. -/
theorem le_of_run {q : State → Nat} {a n : Nat} {s t : State} (hq : ∀ u v, Edge u v → q v ≤ q u + a)
    (h : run n s = .next t) : q t ≤ q s + a * n := by
  induction n generalizing s with
  | zero => cases h; exact Nat.le_refl _
  | succ n ih =>
    obtain ⟨u, e, hu⟩ := run_succ_eq_next h
    have hfirst := hq s u e
    have hrest := ih hu
    rw [Nat.mul_succ]
    omega

/-- A run in a loop of the table is a run of every instruction that covers the loop's control state. That the run does
not leave the loop is seen from a quantity: no step raises it by more than `a`, in control state `c` only a step that
stays raises it by `a`, and the run raises it by `a` in each step. -/
theorem Covers.runsAs_loop {i : Instr} {c : Ctl} (hc : Covers i c) (q : State → Nat) (a : Nat)
    (hq : ∀ u v, Edge u v → q v ≤ q u + a) (hstay : ∀ u v, Edge u v → u.st = c → q v = q u + a → v.st = c)
    {n : Nat} {s t : State} (hst : s.st = c) (h : run n s = .next t) (hraise : q t = q s + a * n) :
    RunsAs i n s t := by
  refine ⟨h, ?_⟩
  induction n generalizing s with
  | zero => cases h; rfl
  | succ n ih =>
    obtain ⟨u, e, hu⟩ := run_succ_eq_next h
    have hfirst := hq s u e
    have hrest := le_of_run hq hu
    rw [Nat.mul_succ] at hraise
    have htight : q u = q s + a := by omega
    rw [execTimes_succ n ((hc s hst).trans (step_of_edge e))]
    exact ih (hstay s u e hst htight) hu (by omega)

/-- In the two loops that append, `OUT_LEN` shows that the run stays (R120, R136). -/
theorem Covers.runsAs_appending {i : Instr} {c : Ctl} (hc : Covers i c) {n : Nat} {s t : State} (hst : s.st = c)
    (h : run n s = .next t) (hlen : t.outLen = s.outLen + n) : RunsAs i n s t := by
  refine hc.runsAs_loop State.outLen 1 (fun u v e => ?_) (fun u v e hu hv => ?_) hst h (by omega)
  · obtain ⟨-, hn⟩ | ⟨-, hn, -⟩ | ⟨b, -, -, -, hn⟩ := e.output_cases <;> omega
  · obtain ⟨-, hn⟩ | ⟨-, hn, -⟩ | ⟨b, ⟨hu', hv'⟩ | ⟨hu', hv'⟩, -, -, -⟩ := e.output_cases
    · omega
    · omega
    · rw [hv', ← hu', hu]
    · rw [hv', ← hu', hu]

/-- In the loop of the chain bytes `0xFF`, `BRLEN` shows that the run stays (R133). -/
theorem Covers.runsAs_chain {i : Instr} (hc : Covers i .lenExt) {n : Nat} {s t : State} (hst : s.st = .lenExt)
    (h : run n s = .next t) (hlen : t.brLen = s.brLen + 255 * n) : RunsAs i n s t := by
  refine hc.runsAs_loop State.brLen 255 (fun u v e => ?_) (fun u v e hu hv => ?_) hst h hlen
  · have hbase := minMatch_add_nibble_le u.lb
    cases e
    case chainLast w _ _ =>
      have := w.isLt
      show u.brLen + w.toNat ≤ u.brLen + 255
      omega
    all_goals simp [chainCont]
    all_goals omega
  · cases e
    case chainLast w _ hw =>
      have hval : w.toNat = 255 := Nat.add_left_cancel hv
      exact absurd (BitVec.eq_of_toNat_eq hval) hw
    all_goals simp_all

end Sys2Proof.Machine

namespace Sys2Proof.Machine

/-! ### The spellings of counts and lengths (R80) -/

theorem encodeCount_nibble {hi : Nibble} (h : hi ≠ litEsc) : encodeCount hi.toNat = (hi, []) := by
  have htake : takeCount hi [] = .ok (hi.toNat, []) := if_neg h
  obtain ⟨hhi, hbytes, -⟩ := takeCount_eq_ok htake
  exact Prod.ext hhi.symm (by simpa using hbytes)

theorem encodeCount_extended (e : Byte) : encodeCount (litEsc.toNat + e.toNat) = (litEsc, [e]) := by
  have htake : takeCount litEsc [e] = .ok (litEsc.toNat + e.toNat, []) := rfl
  obtain ⟨hhi, hbytes, -⟩ := takeCount_eq_ok htake
  exact Prod.ext hhi.symm (by simpa using hbytes.symm)

theorem encodeLength_nibble {lo : Nibble} (h : lo ≠ lenEsc) : encodeLength (minMatch + lo.toNat) = (lo, []) := by
  have htake : takeLength lo [] = .ok (minMatch + lo.toNat, []) := if_neg h
  obtain ⟨hlo, hbytes, -⟩ := takeLength_eq_ok htake
  exact Prod.ext hlo.symm (by simpa using hbytes)

theorem encodeLength_chain (k : Nat) {v : Byte} (hv : v ≠ chainCont) :
    encodeLength (minMatch + lenEsc.toNat + 255 * k + v.toNat) = (lenEsc, List.replicate k chainCont ++ [v]) := by
  have htake : takeLength lenEsc (List.replicate k chainCont ++ [v]) =
      .ok (minMatch + lenEsc.toNat + 255 * k + v.toNat, []) :=
    (if_pos rfl).trans (takeChain_spelled k _ v hv [])
  obtain ⟨hlo, hbytes, -⟩ := takeLength_eq_ok htake
  exact Prod.ext hlo.symm (by simpa using hbytes.symm)

/-! ### The parts of a token, one after the other (R150) -/

theorem State.atPayload_tail {s : State} {b : Byte} {bs : List Byte} (h : s.atPayload (b :: bs)) :
    State.atPayload { s with cur := s.cur + 1 } bs :=
  (State.atPayload_append (bs := [b])).mp h |>.2

theorem State.atPayload_cur_lt {s : State} {b : Byte} {bs : List Byte} (h : s.atPayload (b :: bs)) :
    s.cur < s.csize.toNat :=
  (payloadByte_eq_ok.mp (State.atPayload_head h)).1

/-- The bytes behind a count stand where the literal run starts (R74). -/
theorem State.atPayload_run {s : State} {c : Byte} {cs lits : List Byte} {n : Nat} (hp : s.atPayload (c :: cs))
    (hcount : takeCount (hiNibble c) cs = .ok (n, lits)) :
    State.atPayload { s with cur := s.cur + (1 + (encodeCount n).2.length) } lits := by
  obtain ⟨-, hcs, -⟩ := takeCount_eq_ok hcount
  rw [hcs, ← List.cons_append] at hp
  obtain ⟨-, htail⟩ := State.atPayload_append.mp hp
  rwa [List.length_cons, Nat.add_comm _ 1] at htail

/-- From the control byte to the literal run: one step, and one more where there is an extension byte. -/
theorem RunsAs.count {i : Instr} {s : State} {c : Byte} {cs lits : List Byte} {n : Nat} (hst : s.st = .ctrl)
    (hp : s.atPayload (c :: cs)) (hcount : takeCount (hiNibble c) cs = .ok (n, lits)) (hexec : exec i s = step s)
    (hext : hiNibble c = litEsc → Covers i .litExt) :
    RunsAs i (1 + (encodeCount n).2.length) s
      { s with cur := s.cur + (1 + (encodeCount n).2.length), lc := n, lb := loNibble c, litRem := n, st := .lit } := by
  have hc := State.atPayload_head hp
  by_cases hesc : hiNibble c = litEsc
  · have hfirst := RunsAs.of_step (step_of_edge (.ctrlExt hst c hc hesc)) hexec
    cases cs with
    | nil => simp [takeCount, hesc] at hcount
    | cons e rest =>
      obtain ⟨rfl, -⟩ : litEsc.toNat + e.toNat = n ∧ rest = lits := by simpa [takeCount, hesc] using hcount
      rw [encodeCount_extended]
      exact hfirst.trans ((hext hesc).runsAs rfl (.litExtByte rfl e (State.atPayload_head (State.atPayload_tail hp))))
  · obtain ⟨rfl, -⟩ : (hiNibble c).toNat = n ∧ cs = lits := by simpa [takeCount, hesc] using hcount
    rw [encodeCount_nibble hesc]
    exact .of_step (step_of_edge (.ctrlLit hst c hc hesc)) hexec

/-- The literal run (R124). -/
theorem RunsAs.literals {i : Instr} (hi : Covers i .lit) {s : State} {lits : List Byte} (hst : s.st = .lit)
    (hrem : s.litRem = lits.length) (hp : s.atPayload lits) (hroom : s.hasRoom lits.length) :
    RunsAs i lits.length s { s with cur := s.cur + lits.length, litRem := 0, out := s.out.writeList s.outLen lits,
                                    outLen := s.outLen + lits.length } :=
  hi.runsAs_appending hst (run_lit hst hrem hp hroom) rfl

/-- The whole chain (R134). -/
theorem RunsAs.chain {i : Instr} (hi : Covers i .lenExt) {s : State} {k : Nat} {v : Byte} {rest : List Byte}
    (hst : s.st = .lenExt) (hv : v ≠ chainCont) (hp : s.atPayload (List.replicate k chainCont ++ v :: rest)) :
    RunsAs i (k + 1) s
      { s with cur := s.cur + (k + 1), brLen := s.brLen + 255 * k + v.toNat,
               copyRem := s.brLen + 255 * k + v.toNat, st := .copy } := by
  obtain ⟨hmore, hlast⟩ := State.atPayload_append.mp hp
  rw [List.length_replicate] at hlast
  have hb : payloadByte (s.cur + k) s = .ok v := State.atPayload_head hlast
  have hloop := hi.runsAs_chain hst (run_chain_more k hst hmore) rfl
  exact hloop.trans (hi.runsAs hst
    (.chainLast (s := { s with cur := s.cur + k, brLen := s.brLen + 255 * k }) hst v hb hv))

/-- From the distance to the copy: one step, and one more for every chain byte (R130, R134). -/
theorem RunsAs.distance {i : Instr} {s : State} {d0 d1 : Byte} {after rest : List Byte} {len : Nat}
    (hi : Covers i .dist) (hchain : s.lb = lenEsc → Covers i .lenExt) (hst : s.st = .dist)
    (hp : s.atPayload (d0 :: d1 :: after)) (hmin : 1 ≤ (le16 d0 d1).toNat) (hmax : (le16 d0 d1).toNat ≤ s.outLen)
    (hlen : takeLength s.lb after = .ok (len, rest)) :
    RunsAs i (1 + (encodeLength len).2.length) s
      { s with cur := s.cur + (2 + (encodeLength len).2.length), dist := le16 d0 d1, brLen := len, copyRem := len,
               st := .copy } := by
  obtain ⟨hfield, htail⟩ := (State.atPayload_append (bs := [d0, d1]) (cs := after)).mp hp
  have hleft : 2 ≤ s.left := State.atPayload_length_le_left hfield
  have hd := distanceField_of_atPayload hfield
  by_cases hesc : s.lb = lenEsc
  · have hfirst := hi.runsAs hst (.distChain hst hleft _ hd hmin hmax hesc)
    rw [takeLength, if_pos hesc] at hlen
    obtain ⟨k, v, hv, rfl, rfl⟩ := takeChain_eq_ok hlen
    have hloop := RunsAs.chain
      (s := { s with dist := le16 d0 d1, cur := s.cur + 2, brLen := minMatch + s.lb.toNat, st := .lenExt })
      (hchain hesc) rfl hv htail
    rw [hesc, encodeLength_chain k hv]
    rw [hesc] at hfirst hloop
    simpa [Nat.add_assoc] using hfirst.trans hloop
  · obtain ⟨rfl, rfl⟩ : minMatch + s.lb.toNat = len ∧ after = rest := by simpa [takeLength, hesc] using hlen
    rw [encodeLength_nibble hesc]
    exact hi.runsAs hst (.distCopy hst hleft _ hd hmin hmax hesc)

/-- The copy and the step that ends it (R137). -/
theorem RunsAs.copy {i : Instr} (hi : Covers i .copy) {s : State} {o : List Byte} (hst : s.st = .copy)
    (ho : s.output = some o) (hmin : 1 ≤ s.dist.toNat) (hmax : s.dist.toNat ≤ s.outLen)
    (hroom : s.hasRoom s.copyRem) :
    RunsAs i (s.copyRem + 1) s
      { s with copyRem := 0, out := s.out.writeList s.outLen (copied s.dist.toNat s.copyRem o),
               outLen := s.outLen + s.copyRem, st := .ctrl } :=
  (hi.runsAs_appending hst (run_copy hst rfl ho hmin hmax hroom) rfl).trans (hi.runsAs hst (.copyEnd hst rfl))

end Sys2Proof.Machine

namespace Sys2Proof.Machine

/-! ### Whole tokens (R150) -/

/-- The state that R150 gives after a whole token: `o` is the output before it. -/
def State.afterToken (s : State) (lits : List Byte) (dist : Half) (len : Nat) (o : List Byte) : State :=
  { s with
    cur := s.cur + (3 + lits.length + (encodeCount lits.length).2.length + (encodeLength len).2.length)
    lc := lits.length, lb := (encodeLength len).1, litRem := 0, dist := dist, brLen := len, copyRem := 0
    out := s.out.writeList s.outLen (lits ++ copied dist.toNat len (o ++ lits))
    outLen := s.outLen + (lits.length + len) }

/-- At a control byte the machine's own step is the execution of the form that the byte names. -/
theorem exec_tokenForm_eq_step {s : State} {c : Byte} (hst : s.st = .ctrl) (hc : payloadByte s.cur s = .ok c) :
    exec (tokenForm (hiNibble c) (loNibble c)) s = step s :=
  (exec_tokenForm_ctrl hst _ _).trans (step_ctrl hst hc).symm

/-- A token in its parts, as steps of the machine and as executions of its form. -/
theorem RunsAs.token {s : State} {c d0 d1 : Byte} {cs lits after rest o : List Byte} {len : Nat} (hst : s.st = .ctrl)
    (ho : s.output = some o) (hp : s.atPayload (c :: cs))
    (hcount : takeCount (hiNibble c) cs = .ok (lits.length, lits ++ d0 :: d1 :: after))
    (hlen : takeLength (loNibble c) after = .ok (len, rest)) (hmin : 1 ≤ (le16 d0 d1).toNat)
    (hmax : (le16 d0 d1).toNat ≤ s.outLen + lits.length) (hroom : s.hasRoom (lits.length + len)) :
    RunsAs (tokenForm (hiNibble c) (loNibble c))
      (lits.length + len + 4 + (encodeCount lits.length).2.length + (encodeLength len).2.length) s
      (s.afterToken lits (le16 d0 d1) len o) := by
  obtain ⟨hlo, -, -⟩ := takeLength_eq_ok hlen
  obtain ⟨hlits, hfield⟩ := State.atPayload_append.mp (State.atPayload_run hp hcount)
  have hout := Memory.slice_writeList_end lits ho
  have hlitRoom : s.hasRoom lits.length := fun m hm => by have := hroom m hm; omega
  have hcopyRoom : ∀ m, s.maxOut = some m → s.outLen + lits.length + len ≤ m :=
    fun m hm => by have := hroom m hm; omega
  have hnotEnd : s.cur + (1 + (encodeCount lits.length).2.length) + lits.length ≠ s.csize.toNat :=
    Nat.ne_of_lt (State.atPayload_cur_lt hfield)
  have hctrl := exec_tokenForm_eq_step hst (State.atPayload_head hp)
  have hlitState := (RunsAs.count hst hp hcount hctrl covers_tokenForm_litExt).trans
    (RunsAs.literals (covers_tokenForm_lit _ _) rfl rfl hlits hlitRoom)
  have hdistState := hlitState.trans ((covers_tokenForm_lit _ _).runsAs rfl (.litNext rfl rfl hnotEnd))
  have hcopyState := hdistState.trans
    (RunsAs.distance (covers_tokenForm_dist _ _) covers_tokenForm_lenExt rfl hfield hmin hmax hlen)
  have hend := hcopyState.trans (RunsAs.copy (covers_tokenForm_copy _ _) rfl hout hmin hmax hcopyRoom)
  have hsteps : 1 + (encodeCount lits.length).2.length + lits.length + 1 + (1 + (encodeLength len).2.length) +
      (len + 1) =
      lits.length + len + 4 + (encodeCount lits.length).2.length + (encodeLength len).2.length := by omega
  have hcur : s.cur + (1 + (encodeCount lits.length).2.length) + lits.length + (2 + (encodeLength len).2.length) =
      s.cur + (3 + lits.length + (encodeCount lits.length).2.length + (encodeLength len).2.length) := by omega
  rw [← hsteps, State.afterToken, ← hcur, Memory.writeList_append, ← hlo, hst, ← Nat.add_assoc s.outLen]
  exact hend

/-- A token spelled by R80, of any form. -/
theorem RunsAs.encodedToken {s : State} {lits o : List Byte} {dist : Half} {len : Nat} (hn : lits.length ≤ 270)
    (h4 : 4 ≤ len) (hst : s.st = .ctrl) (ho : s.output = some o) (hp : s.atPayload (encodeToken (.tok lits dist len)))
    (hmin : 1 ≤ dist.toNat) (hmax : dist.toNat ≤ s.outLen + lits.length) (hroom : s.hasRoom (lits.length + len)) :
    RunsAs (tokenForm (encodeCount lits.length).1 (encodeLength len).1)
      (lits.length + len + 4 + (encodeCount lits.length).2.length + (encodeLength len).2.length) s
      (s.afterToken lits dist len o) := by
  have hcount := takeCount_encodeCount lits.length hn (lits ++ bytes16 dist ++ (encodeLength len).2)
  have hlen := takeLength_encodeLength len h4 []
  rw [encodeToken, List.append_assoc, List.append_assoc] at hp
  simp only [bytes16, List.append_assoc, List.cons_append, List.nil_append, List.append_nil] at hp hcount hlen
  have h := RunsAs.token hst ho hp (by rwa [hiNibble_controlByte]) (by rwa [loNibble_controlByte])
    (by rwa [le16_bytes]) (by rwa [le16_bytes]) hroom
  rwa [hiNibble_controlByte, loNibble_controlByte, le16_bytes] at h

/-- Settles O28: the steps of `RunsAs.encodedToken`, and the output they leave as a list. -/
theorem stepsRunWholeToken : Obligations.StepsRunWholeToken := by
  unfold Obligations.StepsRunWholeToken
  intro s lits dist len o hwf hst ho hp hvalid hroom
  obtain ⟨⟨hn, -⟩, h4⟩ : (lits.length ≤ 270 ∧ dist ≠ 0) ∧ 4 ≤ len := by simpa [Token.wellFormed] using hwf
  have hok := distanceValid_tok.mp hvalid
  have holen := State.length_of_output ho
  rw [List.length_append, holen] at hok
  obtain ⟨hrun, -⟩ := RunsAs.encodedToken hn h4 hst ho hp (by omega) (by omega) hroom
  refine ⟨_, _, hrun, hst, rfl, ?_, ?_, (Nat.add_assoc ..).symm, rfl⟩
  · show s.cur + _ = _
    simp only [encodeToken, List.length_cons, List.length_append, length_bytes16]
    omega
  · have hout := Memory.slice_writeList_end (lits ++ copied dist.toNat len (o ++ lits)) ho
    rw [List.length_append, length_copied, ← List.append_assoc] at hout
    exact hout

/-! ### The four forms (R151 to R154) -/

theorem ctrlStep_literal {s : State} {hi : Nibble} (hhi : hi ≠ litEsc) (lo : Nibble) (h : s.cur < s.csize.toNat) :
    ctrlStep hi lo s = { s with cur := s.cur + 1, lc := hi.toNat, lb := lo, litRem := hi.toNat, st := .lit } :=
  (if_neg fun hend => Nat.ne_of_lt h (exhausted_iff.mp hend)).trans (if_neg hhi)

theorem ctrlStep_extended {s : State} (lo : Nibble) (h : s.cur < s.csize.toNat) :
    ctrlStep litEsc lo s = { s with cur := s.cur + 1, lc := litEsc.toNat, lb := lo, st := .litExt } :=
  (if_neg fun hend => Nat.ne_of_lt h (exhausted_iff.mp hend)).trans (if_pos rfl)

/-- A token of the form `i`, its count spelled by `hi` and `ext`, its length by `lo` and `chain`: the first execution of
`i`, and as many as the token has steps. -/
theorem execTimes_token {i : Instr} {s t : State} {hi lo : Nibble} {ext chain lits o : List Byte} {dist : Half}
    {len n m : Nat} (hform : tokenForm hi lo = i) (hcount : encodeCount lits.length = (hi, ext))
    (hlen : encodeLength len = (lo, chain)) (hst : s.st = .ctrl) (ho : s.output = some o)
    (hp : s.atPayload (controlByte hi lo :: (ext ++ (lits ++ bytes16 dist ++ chain))))
    (hmin : 1 ≤ dist.toNat) (hmax : dist.toNat ≤ s.outLen + lits.length) (hroom : s.hasRoom (lits.length + len))
    (hn : lits.length ≤ 270) (h4 : 4 ≤ len) (hfirst : ctrlStep hi lo s = t)
    (hsteps : lits.length + len + 4 + ext.length + chain.length = n)
    (hcur : 3 + lits.length + ext.length + chain.length = m) :
    exec i s = .next t ∧
    execTimes i n s =
      .next { s with
        cur := s.cur + m, lc := lits.length, lb := lo, litRem := 0, dist := dist, brLen := len, copyRem := 0
        out := s.out.writeList s.outLen (lits ++ copied dist.toNat len (o ++ lits))
        outLen := s.outLen + (lits.length + len) } := by
  subst hform hfirst hsteps hcur
  have hp' : s.atPayload (encodeToken (.tok lits dist len)) := by
    rwa [encodeToken, hcount, hlen, List.append_assoc, List.append_assoc, ← List.append_assoc lits]
  obtain ⟨-, h⟩ := RunsAs.encodedToken hn h4 hst ho hp' hmin hmax hroom
  rw [State.afterToken, hcount, hlen] at h
  exact ⟨exec_tokenForm_ctrl hst hi lo, h⟩

/-- Settles O23: neither extension byte nor chain. -/
theorem tokSSRunsWholeToken : Obligations.TokSSRunsWholeToken := by
  unfold Obligations.TokSSRunsWholeToken
  intro s hi lo lits dist o hhi hlo hn hst ho hp hmin hmax hroom
  have hfirst := ctrlStep_literal hhi lo (State.atPayload_cur_lt hp)
  rw [← hn] at hfirst
  exact execTimes_token (ext := []) (chain := []) ((if_neg hhi).trans (if_neg hlo)) (hn ▸ encodeCount_nibble hhi)
    (encodeLength_nibble hlo) hst ho (by rwa [List.append_nil]) hmin hmax hroom (by omega) (by omega) hfirst rfl rfl

/-- Settles O24: an extension byte, no chain. -/
theorem tokXSRunsWholeToken : Obligations.TokXSRunsWholeToken := by
  unfold Obligations.TokXSRunsWholeToken
  intro s lo ext lits dist o hlo hn hst ho hp hmin hmax hroom
  exact execTimes_token (ext := [ext]) (chain := []) ((if_pos rfl).trans (if_neg hlo)) (hn ▸ encodeCount_extended ext)
    (encodeLength_nibble hlo) hst ho (by rwa [List.append_nil]) hmin hmax hroom (by omega) (by omega)
    (ctrlStep_extended lo (State.atPayload_cur_lt hp)) rfl (by simp; omega)

/-- Settles O25: no extension byte, a chain. -/
theorem tokSXRunsWholeToken : Obligations.TokSXRunsWholeToken := by
  unfold Obligations.TokSXRunsWholeToken
  intro s hi lits dist k v o hhi hv hn hst ho hp hmin hmax hroom
  have hfirst := ctrlStep_literal hhi lenEsc (State.atPayload_cur_lt hp)
  rw [← hn] at hfirst
  exact execTimes_token (ext := []) ((if_neg hhi).trans (if_pos rfl)) (hn ▸ encodeCount_nibble hhi)
    (encodeLength_chain k hv) hst ho hp hmin hmax hroom (by omega) (by omega) hfirst (by simp; omega) (by simp; omega)

/-- Settles O26: an extension byte and a chain. -/
theorem tokXXRunsWholeToken : Obligations.TokXXRunsWholeToken := by
  unfold Obligations.TokXXRunsWholeToken
  intro s ext lits dist k v o hv hn hst ho hp hmin hmax hroom
  exact execTimes_token (ext := [ext]) ((if_pos rfl).trans (if_pos rfl)) (hn ▸ encodeCount_extended ext)
    (encodeLength_chain k hv) hst ho hp hmin hmax hroom (by omega) (by omega)
    (ctrlStep_extended lenEsc (State.atPayload_cur_lt hp)) (by simp; omega) (by simp; omega)

/-- `FIN` executes the rule of `S_CTRL` with its nibbles (R155). -/
theorem exec_fin_ctrl {s : State} (h : s.st = .ctrl) (hi lo : Nibble) :
    exec (.fin hi lo) s = .next (ctrlStep hi lo s) := by
  simp only [exec, execFin, h]

/-- A token whose literal run ends the payload, as executions of `FIN`: the last of them finds the run and the payload
at their end (R122, R155). -/
theorem execTimes_fin {s t : State} {hi lo : Nibble} {ext lits : List Byte} {n m : Nat}
    (hcount : encodeCount lits.length = (hi, ext)) (hn : lits.length ≤ 270) (hst : s.st = .ctrl)
    (hp : s.atPayload (controlByte hi lo :: (ext ++ lits))) (hroom : s.hasRoom lits.length)
    (hend : s.cur + m = s.csize.toNat) (hfirst : ctrlStep hi lo s = t) (hsteps : 1 + ext.length + lits.length + 1 = n)
    (hcur : 1 + ext.length + lits.length = m) :
    exec (.fin hi lo) s = .next t ∧
    execTimes (.fin hi lo) n s =
      .next { s with
        cur := s.cur + m, lc := lits.length, lb := lo, litRem := 0, out := s.out.writeList s.outLen lits
        outLen := s.outLen + lits.length, status := .doneOk, st := .done } := by
  subst hfirst hsteps hcur
  have hctrl : exec (.fin hi lo) s = step s := by
    rw [exec_fin_ctrl hst, step_ctrl hst (State.atPayload_head hp), hiNibble_controlByte, loNibble_controlByte]
  have htake : takeCount (hiNibble (controlByte hi lo)) (ext ++ lits) = .ok (lits.length, lits) := by
    have h := takeCount_encodeCount lits.length hn lits
    rwa [hcount, ← hiNibble_controlByte hi lo] at h
  have hlits := State.atPayload_run hp htake
  have hlitState := RunsAs.count hst hp htake hctrl (fun _ => covers_fin_litExt hi lo)
  rw [hcount] at hlits hlitState
  rw [loNibble_controlByte] at hlitState
  rw [← Nat.add_assoc] at hend ⊢
  have hall := (hlitState.trans (RunsAs.literals (covers_fin_lit hi lo) rfl rfl hlits hroom)).trans
    ((covers_fin_lit hi lo).runsAs rfl (.litFinish rfl rfl hend))
  exact ⟨exec_fin_ctrl hst hi lo, hall.2⟩

/-- Settles O27: the two spellings of the literal count. -/
theorem finEndsTheRun : Obligations.FinEndsTheRun := by
  unfold Obligations.FinEndsTheRun
  intro s hi lo ext lits hst hroom
  refine ⟨fun hhi hn hp hend => ?_, fun hhi hn hp hend => ?_⟩
  · have hfirst := ctrlStep_literal hhi lo (State.atPayload_cur_lt hp)
    rw [← hn] at hfirst
    exact execTimes_fin (ext := []) (hn ▸ encodeCount_nibble hhi) (by omega) hst hp hroom hend hfirst
      (by simp; omega) rfl
  · subst hhi
    exact execTimes_fin (ext := [ext]) (hn ▸ encodeCount_extended ext) (by omega) hst hp hroom hend
      (ctrlStep_extended lo (State.atPayload_cur_lt hp)) (by simp; omega) rfl

end Sys2Proof.Machine

namespace Sys2Proof.Machine

/-! ### How a run ends (R157, R218) -/

/-- A run from `s` reaches a terminal state with the result `r`. -/
def EndsWith (s : State) (r : Except ErrCode (List Byte)) : Prop :=
  ∃ n t, run n s = .next t ∧ t.st.terminal = true ∧ result t = some r

theorem endsWith_of_run {n : Nat} {s t : State} {r : Except ErrCode (List Byte)} (hrun : run n s = .next t)
    (h : EndsWith t r) : EndsWith s r := by
  obtain ⟨k, u, hk, hu⟩ := h
  exact ⟨n + k, u, (run_add n k hrun).trans hk, hu⟩

theorem Edge.endsWith {s t : State} {r : Except ErrCode (List Byte)} (e : Edge s t) (h : EndsWith t r) :
    EndsWith s r :=
  endsWith_of_run (run_succ 0 (step_of_edge e)) h

theorem endsWith_raise (k : ErrCode) (s : State) : EndsWith (s.raise k) (.error k) := ⟨0, _, rfl, rfl, rfl⟩

theorem endsWith_finish {s : State} {o : List Byte} (ho : s.output = some o) : EndsWith s.finish (.ok o) :=
  ⟨0, _, rfl, rfl, result_eq_ok.mpr ⟨rfl, ho⟩⟩

/-- A run that without a limit takes the output past `m` ends under the limit `m` with the abort of R184. -/
theorem endsWith_outputLimit {m n : Nat} {s t : State} (hnone : s.maxOut = none) (hle : s.outLen ≤ m)
    (hrun : run n s = .next t) (hlt : m < t.outLen) : EndsWith (s.withLimit m) (.error .outputLimit) := by
  induction n generalizing s with
  | zero => cases hrun; omega
  | succ n ih =>
    obtain ⟨u, e, hu⟩ := run_succ_eq_next hrun
    obtain e' | ⟨-, -, e'⟩ := e.withLimit hnone m
    · obtain ⟨-, -, hmax⟩ := e.keeps_inputs
      exact e'.endsWith (ih (hmax.trans hnone) (e'.outLen_le_limit rfl hle) hu)
    · exact e'.endsWith (endsWith_raise .outputLimit _)

/-! ### Appending in the whole decode (R156) and in the machine (R36) -/

/-- A copy appends the bytes of R137, each with the test of `append`. -/
theorem copyList_eq_appendList {d : Nat} (hd : 1 ≤ d) (maxOut : Option Nat) (n : Nat) {out : List Byte}
    (hle : d ≤ out.length) : copyList maxOut d n out = appendList maxOut (copied d n out) out := by
  induction n generalizing out with
  | zero => rfl
  | succ n ih =>
    have hle' : d ≤ (out ++ [out.getD (out.length - d) 0]).length := by simp; omega
    rw [copied_succ hd hle, copyList, appendList, ih hle']

theorem atLimit_eq_false {maxOut : Option Nat} {n : Nat} : atLimit maxOut n = false ↔ ∀ m, maxOut = some m → n < m := by
  cases maxOut <;> simp [atLimit]

theorem appendList_of_fits {maxOut : Option Nat} {bs out : List Byte}
    (h : ∀ m, maxOut = some m → out.length + bs.length ≤ m) : appendList maxOut bs out = .ok (out ++ bs) := by
  induction bs generalizing out with
  | nil => simp [appendList]
  | cons b bs ih =>
    simp only [List.length_cons] at h
    have hfree : atLimit maxOut out.length = false := atLimit_eq_false.mpr fun m hm => by have := h m hm; omega
    have hrest := ih (out := out ++ [b]) fun m hm => by have := h m hm; simp; omega
    simpa [appendList, hfree] using hrest

theorem appendList_over_limit {m : Nat} {bs out : List Byte} (hle : out.length ≤ m)
    (hlt : m < out.length + bs.length) : appendList (some m) bs out = .error .outputLimit := by
  induction bs generalizing out with
  | nil => simp at hlt; omega
  | cons b bs ih =>
    simp only [List.length_cons] at hlt
    by_cases hm : m ≤ out.length
    · simp [appendList, atLimit, hm]
    · simpa [appendList, atLimit, hm] using ih (out := out ++ [b]) (by simp; omega) (by simp; omega)

/-- A phase of a run that appends `bs` where there is no limit: with the limit either there is room for them, or the run
and the whole decode both end with `OutputLimit`. -/
theorem room_or_outputLimit {n : Nat} {s t : State} {bs o : List Byte} (ho : s.output = some o) (hroom : s.hasRoom 0)
    (hrun : run n { s with maxOut := none } = .next t) (hlen : t.outLen = s.outLen + bs.length) :
    (s.hasRoom bs.length ∧ appendList s.maxOut bs o = .ok (o ++ bs)) ∨
    (appendList s.maxOut bs o = .error .outputLimit ∧ EndsWith s (.error .outputLimit)) := by
  have holen := State.length_of_output ho
  by_cases hfits : s.hasRoom bs.length
  · exact .inl ⟨hfits, appendList_of_fits (holen ▸ hfits)⟩
  · obtain ⟨m, hm, hlt⟩ : ∃ m, s.maxOut = some m ∧ m < s.outLen + bs.length := by
      simpa [State.hasRoom] using hfits
    have hle : s.outLen ≤ m := hroom m hm
    have hend := endsWith_outputLimit (s := { s with maxOut := none }) (m := m) rfl hle hrun (hlen ▸ hlt)
    have hsame : State.withLimit m { s with maxOut := none } = s := by rw [State.withLimit, ← hm]
    rw [hsame] at hend
    exact .inr ⟨hm ▸ appendList_over_limit (holen ▸ hle) (holen ▸ hlt), hend⟩

/-! ### One round of the whole decode (R156) -/

/-- The part of a round behind the literal run: the end of the payload, or a back-reference and the next rounds. -/
def decodeBackRef (maxOut : Option Nat) (fuel : Nat) (lo : Nibble) (out : List Byte) :
    List Byte → Except ErrCode (List Byte)
  | [] => .ok out
  | [_] => .error .truncatedInput
  | d0 :: d1 :: after =>
    if (le16 d0 d1).toNat = 0 ∨ out.length < (le16 d0 d1).toNat then .error .invalidDistance
    else
      match takeLength lo after with
      | .error _ => .error .truncatedInput
      | .ok (len, rest) =>
        match copyList maxOut (le16 d0 d1).toNat len out with
        | .error k => .error k
        | .ok out => decodeTokens maxOut fuel rest out

section
variable {maxOut : Option Nat} {fuel n : Nat} {c : Byte} {cs run out : List Byte}

theorem decodeTokens_count_cut {e : DecodeError} (hcount : takeCount (hiNibble c) cs = .error e) :
    decodeTokens maxOut (fuel + 1) (c :: cs) out = .error .truncatedInput := by
  simp [decodeTokens, hcount]

theorem decodeTokens_run_too_long (hcount : takeCount (hiNibble c) cs = .ok (n, run)) (hlong : run.length < n) :
    decodeTokens maxOut (fuel + 1) (c :: cs) out = .error .truncatedInput := by
  simp [decodeTokens, hcount, hlong]

theorem decodeTokens_append_error {k : ErrCode} (hcount : takeCount (hiNibble c) cs = .ok (n, run))
    (hle : n ≤ run.length) (happend : appendList maxOut (run.take n) out = .error k) :
    decodeTokens maxOut (fuel + 1) (c :: cs) out = .error k := by
  simp [decodeTokens, hcount, Nat.not_lt.mpr hle, happend]

theorem decodeTokens_append_ok {o : List Byte} (hcount : takeCount (hiNibble c) cs = .ok (n, run))
    (hle : n ≤ run.length) (happend : appendList maxOut (run.take n) out = .ok o) :
    decodeTokens maxOut (fuel + 1) (c :: cs) out = decodeBackRef maxOut fuel (loNibble c) o (run.drop n) := by
  simp only [decodeTokens, hcount, if_neg (Nat.not_lt.mpr hle), happend]
  rfl

end

end Sys2Proof.Machine

namespace Sys2Proof.Machine

/-! ### The machine on one round (R157) -/

/-- `bytes` are the rest of the payload, `o` is the output so far, and it is within the limit. -/
def State.Before (s : State) (bytes o : List Byte) : Prop :=
  s.atPayload bytes ∧ s.cur + bytes.length = s.csize.toNat ∧ s.output = some o ∧ s.hasRoom 0

/-- The machine agrees with the whole decode from every state in `S_CTRL`, with this fuel. -/
def RoundsAgree (fuel : Nat) : Prop :=
  ∀ (s : State) (bytes o : List Byte), s.st = .ctrl → s.Before bytes o → bytes.length ≤ fuel →
    EndsWith s (decodeTokens s.maxOut fuel bytes o)

/-- A count is cut only where an extension byte is called for and the payload ends (T4 of R182). -/
theorem takeCount_eq_error {hi : Nibble} {bytes : List Byte} {e : DecodeError} (h : takeCount hi bytes = .error e) :
    hi = litEsc ∧ bytes = [] := by
  by_cases hesc : hi = litEsc
  · cases bytes with
    | nil => exact ⟨hesc, rfl⟩
    | cons => simp [takeCount, hesc] at h
  · simp [takeCount, hesc] at h

/-- A length is cut only where a chain is called for and the payload ends in bytes `0xFF` (T7 of R182). -/
theorem takeLength_eq_error {lo : Nibble} {bytes : List Byte} {e : DecodeError} (h : takeLength lo bytes = .error e) :
    lo = lenEsc ∧ bytes = List.replicate bytes.length chainCont := by
  by_cases hesc : lo = lenEsc
  · refine ⟨hesc, ?_⟩
    rw [takeLength, if_pos hesc] at h
    generalize minMatch + lo.toNat = len at h
    induction bytes generalizing len with
    | nil => rfl
    | cons v bytes ih =>
      by_cases hv : v = chainCont
      · rw [takeChain, if_pos hv] at h
        rw [List.length_cons, List.replicate_succ, ← ih _ h, hv]
      · simp [takeChain, hv] at h
  · simp [takeLength, hesc] at h

/-- `S_CTRL` where the extension byte is missing. -/
theorem endsWith_of_count_cut {s : State} {c : Byte} {cs o : List Byte} {e : DecodeError} (hst : s.st = .ctrl)
    (h : s.Before (c :: cs) o) (hcount : takeCount (hiNibble c) cs = .error e) :
    EndsWith s (.error .truncatedInput) := by
  obtain ⟨hp, hend, -, -⟩ := h
  obtain ⟨hesc, rfl⟩ := takeCount_eq_error hcount
  exact (Edge.ctrlExt hst c (State.atPayload_head hp) hesc).endsWith
    ((Edge.litExtEnd rfl hend).endsWith (endsWith_raise .truncatedInput _))

/-- What stands before bytes stands, behind the first of them, before the others. -/
theorem State.Before.drop {s : State} {bs cs o : List Byte} (h : s.Before (bs ++ cs) o) :
    State.Before { s with cur := s.cur + bs.length } cs o := by
  obtain ⟨hp, hend, ho, hroom⟩ := h
  refine ⟨(State.atPayload_append.mp hp).2, ?_, ho, hroom⟩
  rw [← hend, List.length_append]
  exact Nat.add_assoc ..

theorem State.Before.left_eq {s : State} {bytes o : List Byte} (h : s.Before bytes o) : s.left = bytes.length := by
  obtain ⟨-, hend, -⟩ := h
  rw [State.left, ← hend, Nat.add_sub_cancel_left]

/-- `S_DIST` where the chain behind a valid distance is cut. -/
theorem endsWith_of_chain_cut {s : State} {d0 d1 : Byte} {after o : List Byte} {e : DecodeError} (hst : s.st = .dist)
    (h : s.Before (d0 :: d1 :: after) o) (hmin : 1 ≤ (le16 d0 d1).toNat) (hmax : (le16 d0 d1).toNat ≤ s.outLen)
    (hlen : takeLength s.lb after = .error e) : EndsWith s (.error .truncatedInput) := by
  obtain ⟨hesc, hmore⟩ := takeLength_eq_error hlen
  obtain ⟨hfield, -⟩ := (State.atPayload_append (bs := [d0, d1])).mp h.1
  obtain ⟨htail, hend, -⟩ := State.Before.drop (bs := [d0, d1]) h
  rw [hmore] at htail
  refine (Edge.distChain hst (State.atPayload_length_le_left hfield) _ (distanceField_of_atPayload hfield) hmin hmax
    hesc).endsWith (endsWith_of_run (run_chain_more after.length rfl htail) ?_)
  exact (Edge.chainEnd rfl hend).endsWith (endsWith_raise .truncatedInput _)

/-- The copy against `copyList`, and the rounds behind it. -/
theorem endsWith_copy {fuel : Nat} (ih : RoundsAgree fuel) {s : State} {rest o : List Byte} (hst : s.st = .copy)
    (h : s.Before rest o) (hfuel : rest.length ≤ fuel) (hmin : 1 ≤ s.dist.toNat) (hmax : s.dist.toNat ≤ s.outLen) :
    EndsWith s (match copyList s.maxOut s.dist.toNat s.copyRem o with
      | .error k => .error k
      | .ok out => decodeTokens s.maxOut fuel rest out) := by
  obtain ⟨hp, hend, ho, hroom⟩ := h
  have hfree := run_copy (s := { s with maxOut := none }) hst rfl ho hmin hmax nofun
  rw [copyList_eq_appendList hmin _ _ (State.length_of_output ho ▸ hmax)]
  obtain ⟨hfits, happend⟩ | ⟨happend, hlimit⟩ :=
    room_or_outputLimit (bs := copied s.dist.toNat s.copyRem o) ho hroom hfree (by simp)
  · rw [happend]
    have hout := Memory.slice_writeList_end (copied s.dist.toNat s.copyRem o) ho
    rw [length_copied] at hfits hout
    obtain ⟨hrun, -⟩ := RunsAs.copy (covers_tokenForm_copy 0 0) hst ho hmin hmax hfits
    exact endsWith_of_run hrun (ih _ _ _ rfl ⟨hp, hend, hout, hfits⟩ hfuel)
  · rw [happend]
    exact hlimit

/-- `S_DIST` and what follows it, against the back-reference of a round. -/
theorem endsWith_distance {fuel : Nat} (ih : RoundsAgree fuel) {s : State} {d0 d1 : Byte} {after o : List Byte}
    (hst : s.st = .dist) (h : s.Before (d0 :: d1 :: after) o) (hfuel : after.length ≤ fuel) :
    EndsWith s (decodeBackRef s.maxOut fuel s.lb o (d0 :: d1 :: after)) := by
  have ⟨hp, _, ho, _⟩ := h
  obtain ⟨hfield, -⟩ := (State.atPayload_append (bs := [d0, d1])).mp hp
  rw [decodeBackRef, State.length_of_output ho]
  by_cases hbad : (le16 d0 d1).toNat = 0 ∨ s.outLen < (le16 d0 d1).toNat
  · rw [if_pos hbad]
    exact (Edge.distBad hst (State.atPayload_length_le_left hfield) _ (distanceField_of_atPayload hfield)
      hbad).endsWith (endsWith_raise .invalidDistance _)
  · rw [if_neg hbad]
    have hmin : 1 ≤ (le16 d0 d1).toNat := by omega
    have hmax : (le16 d0 d1).toNat ≤ s.outLen := by omega
    cases hlen : takeLength s.lb after with
    | error e => exact endsWith_of_chain_cut hst h hmin hmax hlen
    | ok p =>
      obtain ⟨len, rest⟩ := p
      obtain ⟨-, rfl, -⟩ := takeLength_eq_ok hlen
      obtain ⟨hrun, -⟩ := RunsAs.distance (covers_tokenForm_dist 0 s.lb) covers_tokenForm_lenExt hst hp hmin hmax hlen
      have hrest := State.Before.drop (bs := d0 :: d1 :: (encodeLength len).2) h
      rw [List.length_cons, List.length_cons, Nat.add_assoc _ 1 1, Nat.add_comm _ 2] at hrest
      rw [List.length_append] at hfuel
      exact endsWith_of_run hrun (endsWith_copy ih rfl hrest (by omega) hmin hmax)

/-- The part of a round behind the literal run. -/
theorem endsWith_backRef {fuel : Nat} (ih : RoundsAgree fuel) {s : State} {bytes o : List Byte} (hst : s.st = .lit)
    (hrem : s.litRem = 0) (h : s.Before bytes o) (hfuel : bytes.length ≤ fuel) :
    EndsWith s (decodeBackRef s.maxOut fuel s.lb o bytes) := by
  have ⟨hp, hend, ho, _⟩ := h
  cases bytes with
  | nil => exact (Edge.litFinish hst hrem hend).endsWith (endsWith_finish ho)
  | cons d0 bytes =>
    refine (Edge.litNext hst hrem (Nat.ne_of_lt (State.atPayload_cur_lt hp))).endsWith ?_
    cases bytes with
    | nil =>
      have hshort : s.left < 2 := h.left_eq ▸ Nat.one_lt_two
      exact (Edge.distShort (s := { s with st := .dist }) rfl hshort).endsWith (endsWith_raise .truncatedInput _)
    | cons d1 after =>
      exact endsWith_distance ih rfl h (by simp at hfuel; omega)

/-- `S_LIT` with a run that fits the payload, and what follows it, against the literals of a round. -/
theorem endsWith_literals {fuel : Nat} (ih : RoundsAgree fuel) {s : State} {c : Byte} {cs lits rest o : List Byte}
    (hcount : takeCount (hiNibble c) cs = .ok (lits.length, lits ++ rest)) (hst : s.st = .lit)
    (hlb : s.lb = loNibble c) (hrem : s.litRem = lits.length) (h : s.Before (lits ++ rest) o)
    (hfuel : rest.length ≤ fuel) : EndsWith s (decodeTokens s.maxOut (fuel + 1) (c :: cs) o) := by
  have ⟨hp, _, ho, hroom⟩ := h
  obtain ⟨hlits, -⟩ := State.atPayload_append.mp hp
  have hle : lits.length ≤ (lits ++ rest).length := by simp
  have hfree := run_lit (s := { s with maxOut := none }) hst hrem hlits nofun
  obtain ⟨hfits, happend⟩ | ⟨happend, hlimit⟩ := room_or_outputLimit (bs := lits) ho hroom hfree rfl
  · rw [decodeTokens_append_ok hcount hle (by rwa [List.take_left]), List.drop_left, ← hlb]
    obtain ⟨-, hend, -⟩ := h.drop
    exact endsWith_of_run (run_lit hst hrem hlits hfits) (endsWith_backRef ih hst rfl
      ⟨(State.atPayload_append.mp hp).2, hend, Memory.slice_writeList_end lits ho, hfits⟩ hfuel)
  · rw [decodeTokens_append_error hcount hle (by rwa [List.take_left])]
    exact hlimit

/-- One more round. -/
theorem RoundsAgree.succ {fuel : Nat} (ih : RoundsAgree fuel) : RoundsAgree (fuel + 1) := by
  intro s bytes o hst h hfuel
  cases bytes with
  | nil =>
    obtain ⟨-, hend, ho, -⟩ := h
    exact (Edge.ctrlEnd hst hend).endsWith (endsWith_finish ho)
  | cons c cs =>
    cases hcount : takeCount (hiNibble c) cs with
    | error e =>
      rw [decodeTokens_count_cut hcount]
      exact endsWith_of_count_cut hst h hcount
    | ok p =>
      obtain ⟨n, run⟩ := p
      have hctrl := exec_tokenForm_eq_step hst (State.atPayload_head h.1)
      obtain ⟨hrun, -⟩ := RunsAs.count hst h.1 hcount hctrl covers_tokenForm_litExt
      refine endsWith_of_run hrun ?_
      obtain ⟨-, hcs, -⟩ := takeCount_eq_ok hcount
      rw [hcs, List.length_cons, List.length_append] at hfuel
      rw [hcs, ← List.cons_append] at h
      have hbefore := h.drop
      rw [List.length_cons, Nat.add_comm _ 1] at hbefore
      by_cases hlong : run.length < n
      · rw [decodeTokens_run_too_long hcount hlong]
        refine Edge.endsWith (.litLong rfl ?_) (endsWith_raise .truncatedInput _)
        exact hbefore.left_eq.trans_lt hlong
      · obtain ⟨lits, rest, rfl, rfl⟩ : ∃ lits rest, run = lits ++ rest ∧ n = lits.length :=
          ⟨run.take n, run.drop n, (List.take_append_drop n run).symm,
            (List.length_take_of_le (Nat.le_of_not_lt hlong)).symm⟩
        rw [List.length_append] at hfuel
        exact endsWith_literals ih hcount rfl rfl rfl hbefore (by omega)

/-- With a fuel of the payload's length the machine agrees with the whole decode from every state in `S_CTRL`: each round
consumes a byte (R162). -/
theorem roundsAgree (fuel : Nat) : RoundsAgree fuel := by
  induction fuel with
  | zero =>
    intro s bytes o hst ⟨_, hend, ho, _⟩ hfuel
    obtain rfl := List.length_eq_zero_iff.mp (Nat.le_zero.mp hfuel)
    exact (Edge.ctrlEnd hst hend).endsWith (endsWith_finish ho)
  | succ fuel ih => exact ih.succ

/-! ### The header, and the whole run (R156, R157) -/

/-- `S_HDR` on a loaded source, against the last two tests of the whole decode, and the rounds behind them. -/
theorem endsWith_header {s : State} {bytes : List Byte} (hst : s.st = .hdr) (hsrc : s.src = Memory.place 0 bytes)
    (hlen : s.srcLen = bytes.length) (hcur : s.cur = 0) (hout : s.outLen = 0) :
    EndsWith s
      (if bytes.length < hdrBytes then .error .truncatedInput
      else if bytes.length - hdrBytes < (wordAt bytes 4).toNat then .error .truncatedInput
      else decodeTokens s.maxOut (wordAt bytes 4).toNat
        ((bytes.drop hdrBytes).take (wordAt bytes 4).toNat) []) := by
  by_cases hshort : bytes.length < hdrBytes
  · rw [if_pos hshort]
    exact (Edge.hdrShort hst (hlen ▸ hshort)).endsWith (endsWith_raise .truncatedInput _)
  rw [if_neg hshort]
  have h16 : 16 ≤ bytes.length := Nat.le_of_not_lt hshort
  have hword : ∀ a, a + 4 ≤ 16 → srcWord a s = .ok (wordAt bytes a) :=
    fun a ha => srcWord_loaded hsrc hlen (by omega)
  have hc := hword 4 (by omega)
  have hn := hword 8 (by omega)
  have hr := hword 12 (by omega)
  by_cases hcut : bytes.length - hdrBytes < (wordAt bytes 4).toNat
  · rw [if_pos hcut]
    exact (Edge.hdrCut hst (hlen ▸ h16) _ _ _ hc hn hr (hlen ▸ hcut)).endsWith (endsWith_raise .truncatedInput _)
  rw [if_neg hcut]
  have hfits : (wordAt bytes 4).toNat ≤ bytes.length - 16 := Nat.le_of_not_lt hcut
  have hpayload : ((bytes.drop hdrBytes).take (wordAt bytes 4).toNat).length = (wordAt bytes 4).toNat :=
    List.length_take_of_le (by rw [List.length_drop]; exact hfits)
  refine (Edge.hdrPass hst (hlen ▸ h16) _ _ _ hc hn hr (hlen ▸ hfits)).endsWith
    (roundsAgree _ _ _ _ rfl ⟨⟨?_, ?_, ?_⟩, ?_, ?_, ?_⟩ (Nat.le_of_eq hpayload))
  · simp [hcur, hpayload]
  · simp only [hlen, hdrBytes]
    omega
  · rw [hpayload]
    simp only [hsrc, hcur]
    exact Memory.slice_place bytes hdrBytes _ (by simp only [hdrBytes]; omega)
  · simp [hcur, hpayload]
  · simp [State.output, hout, Memory.slice]
  · simp [State.hasRoom, hout]

/-- A run from START on a loaded source agrees with the whole decode: the tests of the magic word, then those of the
header, then the rounds. -/
theorem endsWith_decodeSource (s : State) (bytes : List Byte) :
    EndsWith (s.load bytes).start (decodeSource bytes s.maxOut) := by
  unfold decodeSource
  by_cases hshort : bytes.length < magicBytes
  · rw [if_pos hshort]
    exact (Edge.magicShort rfl hshort).endsWith (endsWith_raise .truncatedInput _)
  rw [if_neg hshort]
  have hlen : 4 ≤ bytes.length := Nat.le_of_not_lt hshort
  have hfirst := srcWord_loaded (t := (s.load bytes).start) (a := 0) rfl rfl hlen
  by_cases hmagic : wordAt bytes 0 ≠ magicWord
  · rw [if_pos hmagic]
    exact (Edge.magicWrong rfl hlen _ hfirst hmagic).endsWith (endsWith_raise .invalidMagic _)
  · rw [if_neg hmagic]
    rw [not_not.mp hmagic] at hfirst
    exact (Edge.magicRight rfl hlen hfirst).endsWith (endsWith_header rfl rfl rfl rfl rfl)

/-- Settles O48: the run is followed test by test along the whole decode, by induction on its rounds. -/
theorem runAgreesWithDecode : Obligations.RunAgreesWithDecode := endsWith_decodeSource

/-- Settles O49: both results are what the payload decodes to under the common limit. -/
theorem resultIndependent : Obligations.ResultIndependent := by
  unfold Obligations.ResultIndependent
  intro s₁ s₂ payload trail₁ trail₂ h₁ h₂ r₁ r₂ hsize hmax
  have hcsize : (BitVec.ofNat 32 payload.length).toNat = payload.length :=
    (BitVec.toNat_ofNat ..).trans (Nat.mod_eq_of_lt hsize)
  have hend : ∀ (s : State) (trail : List Byte) (h r : Word),
      EndsWith (s.load (encode (.hdr (BitVec.ofNat 32 payload.length) h r) ++ payload ++ trail)).start
        (decodeTokens s.maxOut payload.length payload []) := by
    intro s trail h r
    rw [List.append_assoc, ← decodeSource_encode_hdr hcsize s.maxOut]
    exact endsWith_decodeSource s _
  obtain ⟨n₁, t₁, hrun₁, hterm₁, hres₁⟩ := hend s₁ trail₁ h₁ r₁
  obtain ⟨n₂, t₂, hrun₂, hterm₂, hres₂⟩ := hend s₂ trail₂ h₂ r₂
  exact ⟨n₁, n₂, t₁, t₂, hrun₁, hrun₂, hterm₁, hterm₂, by rw [hres₁, hres₂, hmax]⟩

end Sys2Proof.Machine

namespace Sys2Proof.Machine

/-! ### In a state of the invariant every read of a step is defined (R143, R185) -/

/-- The host has placed every byte of the source (R214). -/
theorem State.Inv.exists_srcByte {s : State} (h : s.Inv) {a : Nat} (ha : a < s.srcLen) : ∃ b, srcByte a s = .ok b := by
  obtain ⟨b, hb⟩ := Option.isSome_iff_exists.mp (h.loaded a ha)
  exact ⟨b, srcByte_eq_ok.mpr ⟨ha, hb⟩⟩

theorem State.Inv.exists_srcWord {s : State} (h : s.Inv) {a : Nat} (ha : a + 4 ≤ s.srcLen) :
    ∃ w, srcWord a s = .ok w := by
  obtain ⟨b0, h0⟩ := h.exists_srcByte (a := a) (by omega)
  obtain ⟨b1, h1⟩ := h.exists_srcByte (a := a + 1) (by omega)
  obtain ⟨b2, h2⟩ := h.exists_srcByte (a := a + 2) (by omega)
  obtain ⟨b3, h3⟩ := h.exists_srcByte (a := a + 3) (by omega)
  exact ⟨_, srcWord_eq_ok.mpr ⟨b0, b1, b2, b3, h0, h1, h2, h3, rfl⟩⟩

/-- While a run goes on behind the header, the payload lies in the source (R42). -/
theorem State.Inv.exists_payloadByte {s : State} (h : s.Inv) (hp : s.st.inPayload = true) (hd : s.st ≠ .done) {i : Nat}
    (hi : i < s.csize.toNat) : ∃ b, payloadByte i s = .ok b := by
  have hfits := h.payloadFits hp hd
  obtain ⟨b, hb⟩ := h.exists_srcByte (a := hdrBytes + i) (by omega)
  exact ⟨b, payloadByte_eq_ok.mpr ⟨hi, srcByte_eq_ok.mp hb⟩⟩

/-- Where the payload is not exhausted a byte stands at the cursor. -/
theorem State.Inv.exists_byte_at_cur {s : State} (h : s.Inv) (hp : s.st.inPayload = true) (hd : s.st ≠ .done)
    (hne : s.cur ≠ s.csize.toNat) : ∃ b, payloadByte s.cur s = .ok b :=
  h.exists_payloadByte hp hd (Nat.lt_of_le_of_ne (h.cursorFits hp) hne)

theorem State.Inv.exists_distanceField {s : State} (h : s.Inv) (hst : s.st = .dist) (hl : 2 ≤ s.left) :
    ∃ d, distanceField s = .ok d := by
  have hin := two_le_left.mp hl
  have hread : ∀ i, i < s.csize.toNat → ∃ b, payloadByte i s = .ok b :=
    fun _ => h.exists_payloadByte (by simp [hst, Ctl.inPayload]) (by simp [hst])
  obtain ⟨d0, h0⟩ := hread s.cur (by omega)
  obtain ⟨d1, h1⟩ := hread (s.cur + 1) (by omega)
  exact ⟨_, distanceField_eq_ok.mpr ⟨d0, d1, h0, h1, rfl⟩⟩

/-- A copy reads back within the output, where every byte has been written (R143). -/
theorem State.Inv.exists_readBack {s : State} (h : s.Inv) (hst : s.st = .copy) :
    ∃ b, readBack s.dist.toNat s = .ok b := by
  obtain ⟨hmin, hmax⟩ := h.distanceOk (.inr hst)
  obtain ⟨b, hb⟩ := Option.isSome_iff_exists.mp (h.written (s.outLen - s.dist.toNat) (by omega))
  exact ⟨b, readBack_eq_ok.mpr ⟨hmin, hmax, hb⟩⟩

/-! ### A row of the table for every state of the invariant (R166) -/

theorem State.Inv.exists_edge_magic {s : State} (h : s.Inv) (hst : s.st = .magic) : ∃ t, Edge s t := by
  by_cases hl : s.srcLen < 4
  · exact ⟨_, .magicShort hst hl⟩
  · obtain ⟨w, hw⟩ := h.exists_srcWord (a := 0) (by omega)
    exact ⟨_, magicStep_edge hst hw⟩

theorem State.Inv.exists_edge_hdr {s : State} (h : s.Inv) (hst : s.st = .hdr) : ∃ t, Edge s t := by
  by_cases hl : s.srcLen < 16
  · exact ⟨_, .hdrShort hst hl⟩
  · obtain ⟨c, hc⟩ := h.exists_srcWord (a := 4) (by omega)
    obtain ⟨n, hn⟩ := h.exists_srcWord (a := 8) (by omega)
    obtain ⟨r, hr⟩ := h.exists_srcWord (a := 12) (by omega)
    exact ⟨_, headerStep_edge hst hc hn hr⟩

theorem State.Inv.exists_edge_ctrl {s : State} (h : s.Inv) (hst : s.st = .ctrl) : ∃ t, Edge s t := by
  by_cases hend : s.cur = s.csize.toNat
  · exact ⟨_, .ctrlEnd hst hend⟩
  · obtain ⟨c, hc⟩ := h.exists_byte_at_cur (by simp [hst, Ctl.inPayload]) (by simp [hst]) hend
    exact ⟨_, ctrlStep_edge hst hc⟩

theorem State.Inv.exists_edge_litExt {s : State} (h : s.Inv) (hst : s.st = .litExt) : ∃ t, Edge s t := by
  by_cases hend : s.cur = s.csize.toNat
  · exact ⟨_, .litExtEnd hst hend⟩
  · obtain ⟨e, he⟩ := h.exists_byte_at_cur (by simp [hst, Ctl.inPayload]) (by simp [hst]) hend
    exact ⟨_, .litExtByte hst e he⟩

theorem State.Inv.exists_edge_lit {s : State} (h : s.Inv) (hst : s.st = .lit) : ∃ t, Edge s t := by
  rcases Nat.lt_or_ge s.left s.litRem with hlong | hfits
  · exact ⟨_, .litLong hst hlong⟩
  rcases Nat.eq_zero_or_pos s.litRem with hzero | hpos
  · by_cases hend : s.cur = s.csize.toNat
    · exact ⟨_, .litFinish hst hzero hend⟩
    · exact ⟨_, .litNext hst hzero hend⟩
  · have hne : s.cur ≠ s.csize.toNat := by simp only [State.left] at hfits; omega
    obtain ⟨b, hb⟩ := h.exists_byte_at_cur (by simp [hst, Ctl.inPayload]) (by simp [hst]) hne
    cases hlimit : s.limitHit with
    | true => exact ⟨_, .litLimit hst hfits hpos b hb hlimit⟩
    | false => exact ⟨_, .litByte hst hfits hpos b hb hlimit⟩

theorem State.Inv.exists_edge_dist {s : State} (h : s.Inv) (hst : s.st = .dist) : ∃ t, Edge s t := by
  rcases Nat.lt_or_ge s.left 2 with hshort | hl
  · exact ⟨_, .distShort hst hshort⟩
  obtain ⟨d, hd⟩ := h.exists_distanceField hst hl
  by_cases hbad : d.toNat = 0 ∨ s.outLen < d.toNat
  · exact ⟨_, .distBad hst hl d hd hbad⟩
  · have hmin : 1 ≤ d.toNat := by omega
    have hmax : d.toNat ≤ s.outLen := by omega
    by_cases hesc : s.lb = lenEsc
    · exact ⟨_, .distChain hst hl d hd hmin hmax hesc⟩
    · exact ⟨_, .distCopy hst hl d hd hmin hmax hesc⟩

theorem State.Inv.exists_edge_lenExt {s : State} (h : s.Inv) (hst : s.st = .lenExt) : ∃ t, Edge s t := by
  by_cases hend : s.cur = s.csize.toNat
  · exact ⟨_, .chainEnd hst hend⟩
  · obtain ⟨v, hv⟩ := h.exists_byte_at_cur (by simp [hst, Ctl.inPayload]) (by simp [hst]) hend
    by_cases hmore : v = chainCont
    · exact ⟨_, .chainMore hst (hmore ▸ hv)⟩
    · exact ⟨_, .chainLast hst v hv hmore⟩

theorem State.Inv.exists_edge_copy {s : State} (h : s.Inv) (hst : s.st = .copy) : ∃ t, Edge s t := by
  rcases Nat.eq_zero_or_pos s.copyRem with hzero | hpos
  · exact ⟨_, .copyEnd hst hzero⟩
  · obtain ⟨b, hb⟩ := h.exists_readBack hst
    cases hlimit : s.limitHit with
    | true => exact ⟨_, .copyLimit hst hpos b hb hlimit⟩
    | false => exact ⟨_, .copyByte hst hpos b hb hlimit⟩

theorem State.Inv.exists_edge {s : State} (h : s.Inv) : ∃ t, Edge s t := by
  cases hst : s.st with
  | idle => exact ⟨s, .resting (.inl hst)⟩
  | magic => exact h.exists_edge_magic hst
  | hdr => exact h.exists_edge_hdr hst
  | ctrl => exact h.exists_edge_ctrl hst
  | litExt => exact h.exists_edge_litExt hst
  | lit => exact h.exists_edge_lit hst
  | dist => exact h.exists_edge_dist hst
  | lenExt => exact h.exists_edge_lenExt hst
  | copy => exact h.exists_edge_copy hst
  | done => exact ⟨s, .resting (.inr (.inl hst))⟩
  | err => exact ⟨s, .resting (.inr (.inr hst))⟩

/-- Settles O44: the invariant defines every read, so in each control state some row of the table applies. -/
theorem nothingElseFaults : Obligations.NothingElseFaults :=
  fun _ h => h.exists_edge.imp fun _ => step_of_edge

/-! ### The rows that end a run (R180 to R184, R190, R196) -/

/-- The rows into `S_ERR`, each with the registers it has written before the abort and the condition that it has found:
a missing byte (T1, T2, T4 to T7), a wrong magic, a payload cut short (T3), a bad distance, the limit reached. -/
theorem Edge.abort_cases {s t : State} (e : Edge s t) (hs : s.st ≠ .err) (ht : t.st = .err) :
    (t = s.raise .truncatedInput ∧
      ((s.st = .magic ∧ s.srcLen < 4) ∨ (s.st = .hdr ∧ s.srcLen < 16) ∨ (s.st = .litExt ∧ s.cur = s.csize.toNat) ∨
        (s.st = .lit ∧ s.left < s.litRem) ∨ (s.st = .dist ∧ s.left < 2) ∨
        (s.st = .lenExt ∧ s.cur = s.csize.toNat))) ∨
    (∃ w, t = State.raise .invalidMagic { s with magic := w } ∧ s.st = .magic ∧ 4 ≤ s.srcLen ∧ w ≠ magicWord) ∨
    (∃ c n r, t = State.raise .truncatedInput { s with csize := c, sizeHint := n, reserved := r } ∧
      s.st = .hdr ∧ s.srcLen - 16 < c.toNat) ∨
    (∃ d, t = State.raise .invalidDistance { s with dist := d, cur := s.cur + 2 } ∧
      s.st = .dist ∧ (d.toNat = 0 ∨ s.outLen < d.toNat)) ∨
    (t = s.raise .outputLimit ∧ (s.st = .lit ∧ 0 < s.litRem ∨ s.st = .copy ∧ 0 < s.copyRem) ∧ s.limitHit = true) := by
  cases e
  case resting => exact absurd ht hs
  case magicShort h hl => exact .inl ⟨rfl, .inl ⟨h, hl⟩⟩
  case hdrShort h hl => exact .inl ⟨rfl, .inr (.inl ⟨h, hl⟩)⟩
  case litExtEnd h he => exact .inl ⟨rfl, .inr (.inr (.inl ⟨h, he⟩))⟩
  case litLong h hl => exact .inl ⟨rfl, .inr (.inr (.inr (.inl ⟨h, hl⟩)))⟩
  case distShort h hl => exact .inl ⟨rfl, .inr (.inr (.inr (.inr (.inl ⟨h, hl⟩))))⟩
  case chainEnd h he => exact .inl ⟨rfl, .inr (.inr (.inr (.inr (.inr ⟨h, he⟩))))⟩
  case magicWrong h hl w _ hm => exact .inr (.inl ⟨w, rfl, h, hl, hm⟩)
  case hdrCut h _ c n r _ _ _ hcut => exact .inr (.inr (.inl ⟨c, n, r, rfl, h, hcut⟩))
  case distBad h _ d _ hbad => exact .inr (.inr (.inr (.inl ⟨d, rfl, h, hbad⟩)))
  case litLimit h _ hp _ _ hm => exact .inr (.inr (.inr (.inr ⟨rfl, .inl ⟨h, hp⟩, hm⟩)))
  case copyLimit h hp _ _ hm => exact .inr (.inr (.inr (.inr ⟨rfl, .inr ⟨h, hp⟩, hm⟩)))
  all_goals simp at ht

/-- Settles O37: `raise` on the old state, or on it with the registers that its control state has written. -/
theorem abortIsPrecise : Obligations.AbortIsPrecise := by
  unfold Obligations.AbortIsPrecise
  intro s t hs hstep ht
  obtain ⟨rfl, -⟩ | ⟨w, rfl, hst, -⟩ | ⟨c, n, r, rfl, hst, -⟩ | ⟨d, rfl, hst, -⟩ | ⟨rfl, -⟩ :=
    (edge_of_step hstep).abort_cases hs ht
  · exact ⟨nofun, s, rfl, .inl rfl⟩
  · exact ⟨nofun, _, rfl, .inr (.inl ⟨hst, rfl⟩)⟩
  · exact ⟨nofun, _, rfl, .inr (.inr (.inl ⟨hst, rfl⟩))⟩
  · exact ⟨nofun, _, rfl, .inr (.inr (.inr ⟨hst, rfl⟩))⟩
  · exact ⟨nofun, s, rfl, .inl rfl⟩

/-- Settles O38: the conditions of the rows into `S_ERR`, sorted by the kind of the error. -/
theorem abortCausesComplete : Obligations.AbortCausesComplete := by
  unfold Obligations.AbortCausesComplete
  intro s t hs hstep ht
  obtain ⟨rfl, hcause⟩ | ⟨w, rfl, hst, hl, hw⟩ | ⟨c, n, r, rfl, hst, hcut⟩ | ⟨d, rfl, hst, hbad⟩ |
    ⟨rfl, happend, hlimit⟩ := (edge_of_step hstep).abort_cases hs ht
  · refine .inr (.inl ⟨rfl, ?_⟩)
    obtain hshort | hshort | hrest := hcause
    · exact .inl hshort
    · exact .inr (.inl hshort)
    · exact .inr (.inr (.inr hrest))
  · exact .inl ⟨rfl, hst, hl, hw⟩
  · exact .inr (.inl ⟨rfl, .inr (.inr (.inl ⟨hst, hcut⟩))⟩)
  · exact .inr (.inr (.inl ⟨rfl, hst, hbad⟩))
  · exact .inr (.inr (.inr ⟨rfl, happend, limitHit_iff.mp hlimit⟩))

/-- The two rows into `S_DONE` are the two tests that find the payload exhausted (R110, R122). -/
theorem Edge.finish_cases {s t : State} (e : Edge s t) (hs : s.st ≠ .done) (ht : t.st = .done) :
    (s.st = .ctrl ∨ s.st = .lit) ∧ s.cur = s.csize.toNat ∧ t = s.finish := by
  cases e
  case resting => exact absurd ht hs
  case ctrlEnd h he => exact ⟨.inl h, he, rfl⟩
  case litFinish h _ he => exact ⟨.inr h, he, rfl⟩
  all_goals simp at ht

/-- Settles O39: `finish` changes `STATUS` and `ST` alone. -/
theorem finishOnlyAtPayloadEnd : Obligations.FinishOnlyAtPayloadEnd :=
  fun _ _ hs hstep ht => (edge_of_step hstep).finish_cases hs ht

end Sys2Proof.Machine

namespace Sys2Proof.Machine

/-! ### Control states: header, payload, end (R27, R42, R218) -/

theorem Ctl.ne_hdr_of_inPayload {c : Ctl} (h : c.inPayload = true) : c ≠ .hdr := by
  rintro rfl
  cases h

theorem Ctl.ne_done_of_not_terminal {c : Ctl} (h : c.terminal = false) : c ≠ .done := by
  rintro rfl
  cases h

theorem Ctl.busy_of_inPayload {c : Ctl} (hp : c.inPayload = true) (hd : c ≠ .done) : c.status = .busy := by
  cases c <;> simp [Ctl.inPayload] at hp hd <;> rfl

/-- A run in progress stands in the header or in the payload (R27, R42). -/
theorem Ctl.header_or_inPayload_of_busy {c : Ctl} (h : c.status = .busy) :
    (c = .magic ∨ c = .hdr) ∨ c.inPayload = true := by
  cases c <;> simp [Ctl.status] at h <;> simp [Ctl.inPayload]

/-! ### The measure of a run (R226) -/

/-- After the header a row that does not end the run consumes payload bytes, or consumes none and lowers the second
component: the end of a literal run, a copied byte, the end of a copy (R226). -/
theorem Edge.measure_cases {s t : State} (e : Edge s t) (hp : s.st.inPayload = true) (hd : s.st ≠ .done)
    (ht : t.st.terminal = false) :
    (s.cur < t.cur ∧ s.cur < s.csize.toNat) ∨ (t.cur = s.cur ∧ t.rank < s.rank) := by
  obtain ⟨hcur, -⟩ | ⟨hcur, hlt, -⟩ | ⟨hcur, -, hl⟩ := e.cur_cases
  · refine .inr ⟨hcur, ?_⟩
    cases e
    case litNext h _ _ => simp [State.rank, h]
    case copyByte h hpos _ _ _ =>
      have hrem : s.copyRem - 1 < s.copyRem := Nat.sub_one_lt_of_lt hpos
      simp [State.rank, h, hrem]
    case copyEnd h _ => simp [State.rank, h]
    case resting h => rcases h with h | h | h <;> simp [h, Ctl.inPayload] at hp hd ht
    case magicRight h _ _ => simp [h, Ctl.inPayload] at hp
    case hdrPass h _ _ _ _ _ _ _ _ => simp [h, Ctl.inPayload] at hp
    -- the other rows end the run or consume a byte
    all_goals simp [Ctl.terminal] at ht hcur
  · exact .inl (by omega)
  · have := two_le_left.mp hl
    exact .inl (by omega)

/-- Settles O46: `CSIZE` is held after the header, so a step that consumes a byte lowers `CSIZE - CUR`. -/
theorem measureDecreases : Obligations.MeasureDecreases := by
  unfold Obligations.MeasureDecreases
  intro s t _ hp hd hstep ht
  have e := edge_of_step hstep
  obtain ⟨hcsize, -⟩ := e.keeps_latches.2 (Ctl.ne_hdr_of_inPayload hp)
  rw [hcsize]
  obtain ⟨hcur, hlt⟩ | ⟨hcur, hrank⟩ := e.measure_cases hp hd ht
  · exact .inl (by omega)
  · exact .inr ⟨by rw [hcur], hrank⟩

/-! ### Counting the steps of a run (R227) -/

/-- The steps a run may have made by this control state beyond three for each payload byte consumed, its copying steps
apart: two header steps on the first entry to `S_CTRL`, at most two ending steps in each token, one step that ends the
run. -/
def Ctl.surplus : Ctl → Nat
  | .idle => 0
  | .magic => 0
  | .hdr => 1
  | .ctrl => 2
  | .litExt => 0
  | .lit => 0
  | .dist => 1
  | .lenExt => 0
  | .copy => 1
  | .done => 3
  | .err => 3

theorem Ctl.surplus_of_terminal {c : Ctl} (h : c.terminal = true) : c.surplus = 3 := by
  cases c <;> simp [Ctl.terminal] at h <;> rfl

/-- One step more is paid for by the bytes it consumes, by the surplus, or as a copying step. -/
theorem Edge.step_paid {s t : State} (e : Edge s t) (hb : s.st.status = .busy) :
    3 * s.cur + s.st.surplus + 1 ≤
      3 * t.cur + t.st.surplus + if s.st = .copy ∧ t.st = .copy then 1 else 0 := by
  cases e
  case resting h => rcases h with h | h | h <;> simp [h, Ctl.status] at hb
  all_goals simp [*, Ctl.surplus]
  all_goals omega

/-- The header steps consume no payload byte (R101, R102). -/
theorem Edge.keeps_cur_of_header {s t : State} (e : Edge s t) (h : s.st = .magic ∨ s.st = .hdr) : t.cur = s.cur := by
  obtain ⟨hcur, -⟩ | ⟨-, -, hst⟩ | ⟨-, hst, -⟩ := e.cur_cases
  · exact hcur
  all_goals rcases h with h | h <;> simp [h] at hst

/-- A step of a run leads to a cursor within the payload, aborts included (R42). -/
theorem Edge.cur_le_csize {s t : State} (e : Edge s t) (h : s.Inv) (hb : s.st.status = .busy) :
    t.cur ≤ t.csize.toNat := by
  obtain hhdr | hp := Ctl.header_or_inPayload_of_busy hb
  · have hkept : t.cur = s.cur := e.keeps_cur_of_header hhdr
    simp [hkept, h.curZero hhdr]
  · obtain ⟨hcsize, -⟩ := e.keeps_latches.2 (Ctl.ne_hdr_of_inPayload hp)
    have hle := h.cursorFits hp
    rw [hcsize]
    obtain ⟨hcur, -⟩ | ⟨hcur, hlt, -⟩ | ⟨hcur, -, hl⟩ := e.cur_cases
    · omega
    · omega
    · have := two_le_left.mp hl
      omega

/-- `n` steps lead from `s` to its end in `t`. -/
structure EndsIn (s : State) (n : Nat) (t : State) : Prop where
  reached : run n s = .next t
  terminal : t.st.terminal = true
  /-- each step is paid for by the bytes consumed, by the surplus, or as a copying step (R227) -/
  paid : 3 * s.cur + s.st.surplus + n ≤ 3 * t.cur + t.st.surplus + copySteps n s
  /-- the cursor has not left the payload (R42) -/
  within : t.cur ≤ t.csize.toNat

theorem copySteps_succ {s t : State} (e : Edge s t) (n : Nat) :
    copySteps (n + 1) s = (if s.st = .copy ∧ t.st = .copy then 1 else 0) + copySteps n t := by
  simp [copySteps, step_of_edge e]

theorem EndsIn.cons {s u t : State} {n : Nat} (h : EndsIn u n t) (e : Edge s u) (hb : s.st.status = .busy) :
    EndsIn s (n + 1) t where
  reached := (run_succ n (step_of_edge e)).trans h.reached
  terminal := h.terminal
  paid := by
    have hfirst := e.step_paid hb
    have hrest := h.paid
    rw [copySteps_succ e]
    omega
  within := h.within

/-- A state of a run comes to an end if every next state that is not terminal does. -/
theorem State.Inv.endsIn_of_next {s : State} (h : s.Inv) (hb : s.st.status = .busy)
    (hnext : ∀ u, Edge s u → u.st.terminal = false → ∃ n t, EndsIn u n t) : ∃ n t, EndsIn s n t := by
  obtain ⟨u, e⟩ := h.exists_edge
  cases hu : u.st.terminal with
  | true =>
    have hend : EndsIn u 0 u := ⟨rfl, hu, Nat.le_refl _, e.cur_le_csize h hb⟩
    exact ⟨1, u, hend.cons e hb⟩
  | false =>
    obtain ⟨n, t, hend⟩ := hnext u e hu
    exact ⟨n + 1, t, hend.cons e hb⟩

/-! ### Every run comes to an end (R226) -/

/-- From the payload a row leads into the payload or to the end (R166). -/
theorem Edge.keeps_inPayload {s t : State} (e : Edge s t) (hp : s.st.inPayload = true)
    (ht : t.st.terminal = false) : t.st.inPayload = true := by
  cases e <;> simp_all [Ctl.inPayload, Ctl.terminal]

/-- From the payload on a run ends, by recursion on the measure of R226. -/
theorem State.Inv.endsIn_of_inPayload {s : State} (h : s.Inv) (hp : s.st.inPayload = true) (hd : s.st ≠ .done) :
    ∃ n t, EndsIn s n t :=
  h.endsIn_of_next (Ctl.busy_of_inPayload hp hd) fun u e hu =>
    (stepKeepsInvariant s u h (step_of_edge e)).endsIn_of_inPayload (e.keeps_inPayload hp hu)
      (Ctl.ne_done_of_not_terminal hu)
termination_by (s.csize.toNat - s.cur, s.rank)
decreasing_by exact Prod.lex_def.mpr (measureDecreases s u h hp hd (step_of_edge e) hu)

/-- From the header on a run ends: `S_HDR` leads to an abort or into the payload (R102). -/
theorem State.Inv.endsIn_of_hdr {s : State} (h : s.Inv) (hst : s.st = .hdr) : ∃ n t, EndsIn s n t := by
  refine h.endsIn_of_next (by rw [hst]; rfl) fun u e hu => ?_
  have hctrl : u.st = .ctrl := by cases e <;> simp_all [Ctl.terminal]
  exact (stepKeepsInvariant s u h (step_of_edge e)).endsIn_of_inPayload (by rw [hctrl]; rfl) (by simp [hctrl])

/-- From `S_MAGIC` on a run ends: the step leads to an abort or to `S_HDR` (R101). -/
theorem State.Inv.endsIn_of_magic {s : State} (h : s.Inv) (hst : s.st = .magic) : ∃ n t, EndsIn s n t := by
  refine h.endsIn_of_next (by rw [hst]; rfl) fun u e hu => ?_
  have hhdr : u.st = .hdr := by cases e <;> simp_all [Ctl.terminal]
  exact (stepKeepsInvariant s u h (step_of_edge e)).endsIn_of_hdr hhdr

/-! ### The copying steps of a run (R163, R227) -/

/-- After an abort there are no copying steps. -/
theorem copySteps_of_err {s : State} (h : s.st = .err) (n : Nat) : copySteps n s = 0 := by
  induction n with
  | zero => rfl
  | succ n ih => simp [copySteps_succ (.resting (.inr (.inr h))), ih, h]

/-- A row that stays in `S_COPY` appends a byte (R136). -/
theorem Edge.outLen_of_copying {s t : State} (e : Edge s t) (hs : s.st = .copy) (ht : t.st = .copy) :
    t.outLen = s.outLen + 1 := by
  cases e <;> simp_all

/-- Every copying step appends a byte, so a run makes no more of them than any bound on its output that no step lowers:
`q` bounds the output in every state of `P`, and a step keeps `P` and does not lower `q`. -/
theorem outLen_add_copySteps_le {P : State → Prop} {q : State → Nat} (hbound : ∀ u, P u → u.outLen ≤ q u)
    (hstep : ∀ u v, P u → Edge u v → P v ∧ q u ≤ q v) {n : Nat} {s t : State} (hs : P s)
    (hrun : run n s = .next t) : s.outLen + copySteps n s ≤ q t := by
  induction n generalizing s with
  | zero => cases hrun; exact hbound _ hs
  | succ n ih =>
    obtain ⟨u, e, hu⟩ := run_succ_eq_next hrun
    obtain ⟨hPu, hq⟩ := hstep s u hs e
    have hrest := ih hPu hu
    rw [copySteps_succ e]
    split_ifs with hcopy
    · have hlen := e.outLen_of_copying hcopy.1 hcopy.2
      omega
    · obtain ⟨-, hlen⟩ | ⟨-, -, herr, -⟩ | ⟨b, -, -, -, hlen⟩ := e.output_cases
      · omega
      · rw [run_resting (.inr (.inr herr))] at hu
        cases hu
        have hlast := hbound s hs
        rw [copySteps_of_err herr]
        omega
      · omega

/-- The bound of R163 on the bytes consumed so far. -/
theorem State.Inv.outLen_le_cur {s : State} (h : s.Inv) : s.outLen ≤ 255 * s.cur := by
  cases hp : s.st.inPayload with
  | true => exact Nat.le_of_add_right_le (h.bounded hp)
  | false => simp [h.emptyOut hp]

theorem Edge.cur_le {s t : State} (e : Edge s t) : s.cur ≤ t.cur := by
  obtain ⟨hcur, -⟩ | ⟨hcur, -⟩ | ⟨hcur, -⟩ := e.cur_cases <;> omega

theorem State.Inv.copySteps_le_cur {s t : State} {n : Nat} (h : s.Inv) (hrun : run n s = .next t) :
    s.outLen + copySteps n s ≤ 255 * t.cur :=
  outLen_add_copySteps_le (P := State.Inv) (q := fun u => 255 * u.cur) (fun _ hu => hu.outLen_le_cur)
    (fun u v hu e => ⟨stepKeepsInvariant u v hu (step_of_edge e), Nat.mul_le_mul_left 255 e.cur_le⟩) h hrun

theorem copySteps_le_limit {s t : State} {n m : Nat} (hm : s.maxOut = some m) (hle : s.outLen ≤ m)
    (hrun : run n s = .next t) : s.outLen + copySteps n s ≤ m := by
  refine outLen_add_copySteps_le (P := fun u => u.maxOut = some m ∧ u.outLen ≤ m) (q := fun _ => m)
    (fun _ hu => hu.2) (fun u v ⟨hmax, hlen⟩ e => ?_) ⟨hm, hle⟩ hrun
  obtain ⟨-, -, hkept⟩ := e.keeps_inputs
  exact ⟨⟨hkept.trans hmax, e.outLen_le_limit hmax hlen⟩, Nat.le_refl m⟩

/-- Settles O47: the run ends by the measure of R226, and each of its steps is paid for. -/
theorem everyRunEnds : Obligations.EveryRunEnds := by
  unfold Obligations.EveryRunEnds
  intro s h
  obtain ⟨n, t, hend⟩ := h.start.endsIn_of_magic rfl
  have hcur := hend.within
  have hcount : 0 + n ≤ 3 * t.cur + 3 + copySteps n s.start :=
    Ctl.surplus_of_terminal hend.terminal ▸ hend.paid
  have hcopied : copySteps n s.start ≤ 255 * t.cur := by simpa using h.start.copySteps_le_cur hend.reached
  refine ⟨n, t, hend.reached, hend.terminal, by omega, by omega, fun m hm => ?_⟩
  simpa using copySteps_le_limit (s := s.start) hm (Nat.zero_le m) hend.reached

end Sys2Proof.Machine

namespace Sys2Proof.Machine

/-! ### The host's commands (R210 to R217) -/

/-- Settles O1: the reset is accepted in any state; by `hostDo` every other command is refused while `BUSY`. -/
theorem resetGivesSpecifiedValues : Obligations.ResetGivesSpecifiedValues := by
  unfold Obligations.ResetGivesSpecifiedValues
  refine ⟨fun s => ⟨State.reset, rfl, rfl, rfl, rfl, rfl, rfl, rfl⟩, fun s c hb hc => ?_⟩
  cases c with
  | load bytes => exact ⟨_, if_pos hb⟩
  | setLimit m => exact ⟨_, if_pos hb⟩
  | start => exact ⟨_, if_pos hb⟩
  | reset => exact absurd rfl hc

/-- Settles O2: in these control states nothing is fetched. -/
theorem restingBlockKeepsItsState : Obligations.RestingBlockKeepsItsState := fun _ h => step_resting h

/-- Settles O3: the test of `STATUS` in `hostDo`, and `State.start`. -/
theorem startBeginsFreshRun : Obligations.StartBeginsFreshRun := by
  unfold Obligations.StartBeginsFreshRun
  intro s
  refine ⟨fun h => ?_, fun hb => if_pos hb⟩
  have hfree : s.status ≠ .busy := by rcases h with h | h | h <;> simp [h]
  exact if_neg hfree

/-- Settles O4: the loaded bytes are those placed from offset 0. -/
theorem hostWritesOnlyBetweenRuns : Obligations.HostWritesOnlyBetweenRuns := by
  unfold Obligations.HostWritesOnlyBetweenRuns
  intro s bytes m
  refine ⟨fun hb => ⟨if_pos hb, if_pos hb⟩, fun hfree => ⟨?_, if_neg hfree⟩⟩
  have hread : ∀ a, (s.load bytes).src.read a = bytes[a]? := fun a => by simp [Memory.read_place]
  exact ⟨s.load bytes, if_neg hfree, rfl, hread, rfl⟩

/-- The four moves of the host (R216). -/
theorem hostDo_cases {c : HostCmd} {s t : State} (h : hostDo c s = .next t) :
    t = State.reset ∨ s.status ≠ .busy ∧
      ((∃ bytes, t = s.load bytes) ∨ (∃ m, t = { s with maxOut := m }) ∨ t = s.start) := by
  by_cases hc : c = .reset
  · subst hc
    cases h
    exact .inl rfl
  · have hfree := (hostDo_accepted_iff hc).mp ⟨t, h⟩
    refine .inr ⟨hfree, ?_⟩
    cases c with
    | load bytes => exact .inl ⟨bytes, by simpa [hostDo, hfree] using h.symm⟩
    | setLimit m => exact .inr (.inl ⟨m, by simpa [hostDo, hfree] using h.symm⟩)
    | start => exact .inr (.inr (by simpa [hostDo, hfree] using h.symm))
    | reset => exact absurd rfl hc

theorem State.Inv.not_busy {s : State} (h : s.Inv) (hfree : s.status ≠ .busy) : s.st.status ≠ .busy :=
  h.statusOf ▸ hfree

/-- A load keeps the invariant while no run is in progress: the whole source is placed, and no payload is being read. -/
theorem State.Inv.load {s : State} (h : s.Inv) (hfree : s.status ≠ .busy) (bytes : List Byte) : (s.load bytes).Inv :=
  { h with
    srcWf := Memory.place_wf 0 bytes
    loaded := fun a ha => by simpa [Memory.read_place] using ha
    payloadFits := fun hp hd => absurd (Ctl.busy_of_inPayload hp hd) (h.not_busy hfree) }

/-- A new limit keeps the invariant while no run is in progress: only a run in progress has to be within it. -/
theorem State.Inv.setLimit {s : State} (h : s.Inv) (hfree : s.status ≠ .busy) (m : Option Nat) :
    State.Inv { s with maxOut := m } :=
  { h with limited := fun hb => absurd hb (h.not_busy hfree) }

/-- Settles O43, command by command. -/
theorem hostKeepsInvariant : Obligations.HostKeepsInvariant := by
  unfold Obligations.HostKeepsInvariant
  intro c s t h hdo
  obtain rfl | ⟨hfree, ⟨bytes, rfl⟩ | ⟨m, rfl⟩ | rfl⟩ := hostDo_cases hdo
  · exact resetMeetsInvariant
  · exact h.load hfree bytes
  · exact h.setLimit hfree m
  · exact h.start

end Sys2Proof.Machine
